-- ==== Sys2Proof/Word.lean ====
section
/-! DEFINITION. The word types of the block: the Byte and the 32-bit Telegram (00_scope.md section 5.1,
10_state.md R21). Durations are naturals and the two ENC operands integers (00_scope.md section 4, the
unbounded reading), so they need no word type. -/

namespace Sys2Proof

/-- An 8-bit unsigned value, and one character code of an operand (00_scope.md section 5.1). -/
abbrev Byte := BitVec 8

/-- A 32-bit Telegram `[Address][~Address][Command][~Command]` (30_encoding.md R75). -/
abbrev Telegram := BitVec 32

end Sys2Proof
end

