-- ==== Sys2Proof/Config.lean ====
section
/-! DEFINITION. The parameters of a realisation (00_scope.md section 4, 92_eei_decisions.md D4 to D10), as
plain data. `none` is the unbounded reading, which the spec calls normative. The constants that are no
parameters (R4) and the values the parameters have at reset stand in Machine/Constants.lean. -/

namespace Sys2Proof

/-- What a frame with an odd count of pulses does with its last pulse (42_pulse_frame_decode.md R152). -/
inductive OddTail where
  | drop
  | fail
  deriving DecidableEq, Repr

/-- The parameters of 00_scope.md section 4. A width or limit of `none` is the unbounded reading. -/
structure Params where
  /-- OPW, bits of an ENC operand (D4). -/
  opw : Option Nat
  /-- TXT_MAX, most characters of a DEC text (D5). -/
  txtMax : Option Nat
  /-- RAW_MAX, most characters of a PTD raw string (D6). -/
  rawMax : Option Nat
  /-- DUR_W, bits of a duration and of the threshold, saturating (D7). -/
  durW : Option Nat
  /-- NFR_W, bits of NFRAMES (D8). -/
  nfrW : Option Nat
  /-- The codes for which isWhitespace holds (D9). -/
  whitespace : List Byte
  /-- ODD_TAIL (D10). -/
  oddTail : OddTail
  deriving DecidableEq, Repr

/-- The widths the spec allows: "any `OPW >= 8` allowed" (D4) and "any `DUR_W >= 13` is allowed" (D7). -/
def Params.legal (p : Params) : Bool :=
  p.opw.all (fun w => decide (8 ≤ w)) && p.durW.all (fun w => decide (13 ≤ w))

end Sys2Proof
end

