-- ==== Sys2Proof/Syntax.lean ====
section
/-! DEFINITION. The operations as syntax, the request that encodes one, and what the host can do to the
block (30_encoding.md section 1, 70_reset_and_hazards.md R229). -/

namespace Sys2Proof

/-- The three operations, one constructor per row of opcode_table.json. -/
inductive Instr where
  /-- ENC: address and command, any integers (40_telegram_codec.md R100). -/
  | enc (a c : Int)
  /-- DEC: the telegram text TXT (40_telegram_codec.md R110). -/
  | dec (txt : List Byte)
  /-- PTD: the threshold T when TEN = 1, `none` when TEN = 0, and the raw string RAW
  (43_pulse_train_decode.md R170). -/
  | ptd (threshold : Option Nat) (raw : List Byte)
  deriving DecidableEq, Repr

/-- One operand word of a request, in the order of 30_encoding.md R71 to R73. -/
inductive Operand where
  /-- A or C: an integer. -/
  | int (n : Int)
  /-- T, TXT_LEN or RAW_LEN: an unsigned number. -/
  | nat (n : Nat)
  /-- One 8-bit character of TXT or RAW. -/
  | char (c : Byte)
  deriving DecidableEq, Repr

/-- "A request is one 8-bit select word OPSEL followed by the operands of the selected operation"
(30_encoding.md R70). -/
structure Request where
  opsel : Byte
  operands : List Operand
  deriving DecidableEq, Repr

/-- What the host does to the block (70_reset_and_hazards.md R229). A read changes nothing and is a
function of State (Machine/Views.lean), so it is no event. -/
inductive HostEvent where
  | request (r : Request)
  | reset
  deriving DecidableEq, Repr

end Sys2Proof
end

