-- ==== Sys2Proof/WellFormed.lean ====
section
/-! DEFINITION. Which operations a realisation with given parameters can be presented with at all
(20_memory.md R52, 60_exceptions.md R204). In the unbounded reading every one is well formed. The widths OPW
and DUR_W rule out no operation: an ENC operand counts by its low 8 bits only (40_telegram_codec.md R101),
and a threshold above the largest duration behaves like it (41_pulse_parse_segment.md R136). -/

namespace Sys2Proof

/-- The bound of the realisation that an operand breaks. -/
inductive BoundViolation where
  /-- `TXT_LEN > TXT_MAX` (20_memory.md R52). -/
  | textTooLong
  /-- `RAW_LEN > RAW_MAX` (20_memory.md R52). -/
  | rawTooLong
  deriving DecidableEq, Repr

/-- The bound that the operation breaks, if any. -/
def Instr.violation (p : Params) : Instr → Option BoundViolation
  | .enc _ _ => none
  | .dec txt =>
    if p.txtMax.all (fun m => decide (txt.length ≤ m)) then none else some .textTooLong
  | .ptd _ raw =>
    if p.rawMax.all (fun m => decide (raw.length ≤ m)) then none else some .rawTooLong

/-- The operation breaks no bound of the realisation. -/
def Instr.wf (p : Params) (i : Instr) : Bool :=
  (i.violation p).isNone

end Sys2Proof
end

