-- ==== Sys2Proof/Decode.lean ====
section
/-! DEFINITION. From a request to an operation and back (30_encoding.md section 1, opcode_table.json).
The decoder is total on requests and rejects by name; the encoder follows the same formats E, D and P. -/

namespace Sys2Proof

/-- The request formats of 30_encoding.md R71 to R73. -/
inductive Format where
  | formatE
  | formatD
  | formatP
  deriving DecidableEq, Repr

/-- One row of the opcode map (30_encoding.md section 1): `OPSEL &&& mask = pattern` selects the row. -/
structure OpcodeRow where
  format : Format
  pattern : Byte
  mask : Byte
  deriving DecidableEq, Repr

/-- Why a request selects no operation. -/
inductive DecodeReject where
  /-- A reserved OPSEL value (30_encoding.md R74). -/
  | reservedOpsel (opsel : Byte)
  /-- The operand words are not those of the selected format (assumption 3). -/
  | operandShape
  /-- TXT_LEN or RAW_LEN is not the count of the characters that follow it (assumption 3). -/
  | lengthMismatch
  deriving DecidableEq, Repr

/-- The opcode map of 30_encoding.md section 1, in the table's order. -/
def opcodeTable : List OpcodeRow :=
  [⟨.formatE, 0x01, 0xFF⟩, ⟨.formatD, 0x02, 0xFF⟩, ⟨.formatP, 0x03, 0xFB⟩]

/-- "A decoder reads OPSEL, tests `(OPSEL & mask) == match` for each row, and refuses when no row
matches" (30_encoding.md R74, the text after the opcode map). -/
def formatOf (opsel : Byte) : Option Format :=
  (opcodeTable.find? (fun row => opsel &&& row.mask == row.pattern)).map OpcodeRow.format

/-- TEN, bit 2 of OPSEL (30_encoding.md R70). -/
def tenBit (opsel : Byte) : Bool := opsel.getLsbD 2

/-- The characters of a run of character words. -/
def charsOf : List Operand → Option (List Byte)
  | [] => some []
  | .char c :: rest => (charsOf rest).map (c :: ·)
  | .int _ :: _ => none
  | .nat _ :: _ => none

/-- A length word and exactly that many characters (30_encoding.md R72, R73). -/
def decodeText : List Operand → Except DecodeReject (List Byte)
  | .nat n :: rest =>
    match charsOf rest with
    | some cs => if cs.length = n then .ok cs else .error .lengthMismatch
    | none => .error .operandShape
  | _ => .error .operandShape

/-- Format E (30_encoding.md R71): A, then C. -/
def decodeFormatE : List Operand → Except DecodeReject Instr
  | [.int a, .int c] => .ok (.enc a c)
  | _ => .error .operandShape

/-- Format D (30_encoding.md R73): TXT_LEN, then TXT. -/
def decodeFormatD (ops : List Operand) : Except DecodeReject Instr :=
  (decodeText ops).map .dec

/-- Format P (30_encoding.md R72): T only when TEN is 1, then RAW_LEN, then RAW. -/
def decodeFormatP (ten : Bool) (ops : List Operand) : Except DecodeReject Instr :=
  match ten, ops with
  | false, ops => (decodeText ops).map (.ptd none)
  | true, .nat t :: rest => (decodeText rest).map (.ptd (some t))
  | true, _ => .error .operandShape

/-- The operation a request selects, or why it selects none. -/
def decode (r : Request) : Except DecodeReject Instr :=
  match formatOf r.opsel with
  | none => .error (.reservedOpsel r.opsel)
  | some .formatE => decodeFormatE r.operands
  | some .formatD => decodeFormatD r.operands
  | some .formatP => decodeFormatP (tenBit r.opsel) r.operands

/-- A length word and the characters it counts. -/
def encodeText (cs : List Byte) : List Operand :=
  .nat cs.length :: cs.map .char

/-- The request of an operation (30_encoding.md R71 to R73). -/
def encode : Instr → Request
  | .enc a c => ⟨0x01, [.int a, .int c]⟩
  | .dec txt => ⟨0x02, encodeText txt⟩
  | .ptd none raw => ⟨0x03, encodeText raw⟩
  | .ptd (some t) raw => ⟨0x07, .nat t :: encodeText raw⟩

/-- The operand words of zeros of a format. -/
def zeroOperands (opsel : Byte) : List Operand :=
  match formatOf opsel, tenBit opsel with
  | some .formatE, _ => [.int 0, .int 0]
  | some .formatD, _ => [.nat 0]
  | some .formatP, false => [.nat 0]
  | some .formatP, true => [.nat 0, .nat 0]
  | none, _ => []

/-- The request whose table bits are `w`: the opcode table numbers the 8 bits of OPSEL and no others,
and every operand word is zero. -/
def tableRequest (nbits w : Nat) : Request :=
  let opsel : Byte := BitVec.ofNat 8 (w % 2 ^ nbits)
  ⟨opsel, zeroOperands opsel⟩

/-- What the decoder reads from the request whose table bits are `w`. -/
def decodeTableWord (nbits w : Nat) : Option Instr :=
  match decode (tableRequest nbits w) with
  | .ok i => some i
  | .error _ => none

end Sys2Proof
end

