-- ==== Sys2Proof/Machine/Constants.lean ====
section
/-! DEFINITION. The constants of the block (00_scope.md R4) and the values its parameters take
(00_scope.md section 4). -/

namespace Sys2Proof.Machine

/-- GAP_MIN: a pulse strictly greater than this, not in last position, ends a frame. -/
def gapMin : Nat := 5000

/-- ARTIFACT_MIN: an interior space strictly greater than this stops bit consumption. -/
def artifactMin : Nat := 3000

/-- THRESH_DEFAULT: the threshold used when the request gives none. -/
def threshDefault : Nat := 700

/-- MIN_PAIRS: fewest (mark, space) pairs of a decodable frame. -/
def minPairs : Nat := 10

/-- NBITS: the exact count of classified bits a frame must give. -/
def nbits : Nat := 8

/-- The six default codes of isWhitespace (41_pulse_parse_segment.md R131, D9). -/
def asciiWhitespace : List Byte := [0x09, 0x0A, 0x0B, 0x0C, 0x0D, 0x20]

/-- The unbounded reading, "which is the normative functional reading" (00_scope.md section 4), with the
default white space (D9) and `ODD_TAIL = drop` (D10). -/
def unboundedParams : Params where
  opw := none
  txtMax := none
  rawMax := none
  durW := none
  nfrW := none
  whitespace := asciiWhitespace
  oddTail := .drop

/-- The defaults of a realisation (00_scope.md section 4): OPW 32, TXT_MAX 16, DUR_W 16, NFR_W 16, and
RAW_MAX, which has no default. -/
def defaultParams (rawMax : Option Nat) : Params where
  opw := some 32
  txtMax := some 16
  rawMax := rawMax
  durW := some 16
  nfrW := some 16
  whitespace := asciiWhitespace
  oddTail := .drop

end Sys2Proof.Machine
end

