-- ==== Sys2Proof/Machine/State.lean ====
section
/-! DEFINITION. The result registers of the two units (10_state.md), the inputs of a step that stand in
State because a step is a function of State alone, the state after reset, and the reasons a step can stop. -/

namespace Sys2Proof.Machine

/-- The result registers of unit TC (10_state.md R21 to R23). -/
structure TcRegs where
  /-- TELEGRAM (R21). -/
  telegram : Telegram
  /-- TC_DONE (R22). -/
  done : BitVec 1
  /-- TC_ERR (R23). -/
  err : BitVec 3
  deriving DecidableEq, Repr

/-- The result registers of unit PD (10_state.md R24 to R29). -/
structure PdRegs where
  /-- BYTE (R24). -/
  byte : Byte
  /-- CHAN (R25). -/
  chan : BitVec 3
  /-- CMDK (R26). -/
  cmdk : BitVec 3
  /-- NFRAMES (R27), in the unbounded reading of its width NFR_W. -/
  nframes : Nat
  /-- MATCH (R28). -/
  matchFlag : BitVec 1
  /-- PD_DONE (R29). -/
  done : BitVec 1
  /-- PD_ERR (R29). -/
  err : BitVec 3
  deriving DecidableEq, Repr

/-- The whole machine: the registers of the two units, and the model's own two fields, which hold the
inputs of a step (assumptions 1 and 4): the host's events not yet performed, oldest first, and the
parameters of the realisation, which no step changes. -/
structure State where
  tc : TcRegs
  pd : PdRegs
  port : List HostEvent
  params : Params
  deriving DecidableEq, Repr

/-- Every result register of unit TC at zero (10_state.md R35). -/
def TcRegs.zero : TcRegs := ⟨0, 0, 0⟩

/-- Every result register of unit PD at zero (10_state.md R35). -/
def PdRegs.zero : PdRegs := ⟨0, 0, 0, 0, 0, 0, 0⟩

/-- The state after reset (10_state.md R35): every result register zero. No request has been given, and
the parameters are those of the unbounded reading (assumption 4). -/
def State.reset : State where
  tc := .zero
  pd := .zero
  port := []
  params := unboundedParams

/-- The block has no fault: "No operation can crash, hang or run for ever" (60_exceptions.md R203), and
its five error kinds are next states (R196). No constructor, so nothing raises one. -/
inductive Fault where
  deriving DecidableEq, Repr

/-- The requests the block does not accept. All are safe: the model stops where the spec gives no step. -/
inductive Refusal where
  /-- An operation without a meaning in `exec`; raised by no arm of this model. Safe. -/
  | notModelled (mnemonic : String)
  /-- Raised by `step` on a request that selects no operation: a reserved OPSEL (30_encoding.md R74), or
  operand words that are not those of the format (assumption 3). Safe. -/
  | notARequest (why : DecodeReject)
  /-- Raised by `step` on a text or raw string longer than the realisation allows (20_memory.md R52,
  60_exceptions.md R204); never in the unbounded reading. Safe. -/
  | outOfBounds (why : BoundViolation)
  /-- Raised by PTD when the count of decoded frames does not fit in NFR_W bits (10_state.md R27); never
  in the unbounded reading. Safe. -/
  | frameCountTooWide
  deriving DecidableEq, Repr

end Sys2Proof.Machine
end

