-- ==== Sys2Proof/Machine/Ops.lean ====
section
/-! DEFINITION. The shared operations: the byte arithmetic of 00_scope.md R5, R6 and R10, the writes of a
unit's registers, the end of an operation by an error kind, and reset. -/

namespace Sys2Proof.Machine

/-- `mask8(n)`: the Byte congruent to `n` modulo 256 (00_scope.md R5). -/
def mask8 (n : Int) : Byte := BitVec.ofInt 8 n

/-- `inv8(v) = 255 - v` (00_scope.md R6). -/
def inv8 (v : Byte) : Byte := 255 - v

/-- Four Bytes packed most significant first (40_telegram_codec.md R103). -/
def pack (a ai c ci : Byte) : Telegram :=
  (a.setWidth 32 <<< 24) ||| (ai.setWidth 32 <<< 16) ||| (c.setWidth 32 <<< 8) ||| ci.setWidth 32

/-- ADDR, bits 31:24 (10_state.md R21). -/
def addrOf (t : Telegram) : Byte := t.extractLsb' 24 8

/-- ADDR_INV, bits 23:16. -/
def addrInvOf (t : Telegram) : Byte := t.extractLsb' 16 8

/-- CMD, bits 15:8. -/
def cmdOf (t : Telegram) : Byte := t.extractLsb' 8 8

/-- CMD_INV, bits 7:0. -/
def cmdInvOf (t : Telegram) : Byte := t.extractLsb' 0 8

/-- "a Telegram is *valid* iff the second byte equals the bitwise inverse of the first, and the fourth
byte equals the bitwise inverse of the third" (30_encoding.md R75). -/
def validTelegram (t : Telegram) : Bool :=
  addrInvOf t == inv8 (addrOf t) && cmdInvOf t == inv8 (cmdOf t)

/-- The two units. -/
inductive TcOrPd where
  | tc
  | pd
  deriving DecidableEq, Repr

/-- The five error kinds (60_exceptions.md R190). -/
inductive ErrKind where
  | malformedTelegram
  | addressInverseMismatch
  | commandInverseMismatch
  | malformedPulseToken
  | noDecodableFrames
  deriving DecidableEq, Repr

/-- The code of an error kind (60_exceptions.md R190). -/
def errCode : ErrKind → BitVec 3
  | .malformedTelegram => 1
  | .addressInverseMismatch => 2
  | .commandInverseMismatch => 3
  | .malformedPulseToken => 4
  | .noDecodableFrames => 5

/-- The unit that raises an error kind (60_exceptions.md R190). -/
def errUnit : ErrKind → TcOrPd
  | .malformedTelegram => .tc
  | .addressInverseMismatch => .tc
  | .commandInverseMismatch => .tc
  | .malformedPulseToken => .pd
  | .noDecodableFrames => .pd

/-- Every register of unit TC written together (20_memory.md R58, 10_state.md R33). -/
def writeTc (r : TcRegs) (s : State) : State := { s with tc := r }

/-- Every register of unit PD written together (20_memory.md R58, 10_state.md R33). -/
def writePd (r : PdRegs) (s : State) : State := { s with pd := r }

/-- What a failed operation leaves in unit TC (60_exceptions.md R196). -/
def tcFailed (e : ErrKind) : TcRegs := { TcRegs.zero with done := 1, err := errCode e }

/-- What a failed operation leaves in unit PD (60_exceptions.md R196). -/
def pdFailed (e : ErrKind) : PdRegs := { PdRegs.zero with done := 1, err := errCode e }

/-- `raise E` (60_exceptions.md R196): ERR of the unit that raises it gets the code, DONE gets 1, every
other result register of that unit gets 0, and the other unit is untouched. "Control goes nowhere: there
is no handler, no vector, no saved state, no mode change and no stack", and "There is nothing to return
from" (R200), so no return operation stands beside it. -/
def raiseError (e : ErrKind) (s : State) : State :=
  match errUnit e with
  | .tc => writeTc (tcFailed e) s
  | .pd => writePd (pdFailed e) s

/-- Reset (70_reset_and_hazards.md R220): every result register to zero, and nothing else. -/
def applyReset (s : State) : State := { s with tc := .zero, pd := .zero }

end Sys2Proof.Machine
end

