-- ==== Sys2Proof/Machine/Flags.lean ====
section
/-! DEFINITION. The status of the two units and the MATCH flag (10_state.md R22, R23, R28, R29, R32,
43_pulse_train_decode.md R174). -/

namespace Sys2Proof.Machine

/-- `TC_OK`: "the last TC operation returned a success result" (10_state.md R23). -/
def tcOk (r : TcRegs) : Bool := r.done == 1 && r.err == 0

/-- `PD_OK` (10_state.md R29). -/
def pdOk (r : PdRegs) : Bool := r.done == 1 && r.err == 0

/-- The 4-bit status word: bit 0 DONE, bits 3:1 ERR (10_state.md R32). -/
def statusWord (err : BitVec 3) (done : BitVec 1) : BitVec 4 := err ++ done

/-- MATCH: 1 exactly when every collected byte equals the canonical byte (43_pulse_train_decode.md R174). -/
def framesMatch (canonical : Byte) (decoded : List Byte) : BitVec 1 :=
  if decoded.all (· == canonical) then 1 else 0

/-- Whether a count of decoded frames fits in NFR_W bits (10_state.md R27). -/
def countFits (p : Params) (n : Nat) : Bool := p.nfrW.all (fun w => decide (n < 2 ^ w))

end Sys2Proof.Machine
end

