-- ==== Sys2Proof/Machine/Operands.lean ====
section
/-! DEFINITION. How operand values are read: characters and digits (00_scope.md R7, R8), an ENC integer,
the threshold and a duration under the parameters of the realisation (00_scope.md section 4). -/

namespace Sys2Proof.Machine

/-- `MemRead(S + i, 1)`: the character at index `i` of an operand space (20_memory.md R50, R64). -/
def memRead (space : List Byte) (i : Nat) : Option Byte := space[i]?

/-- `hexval(ch)`, defined for exactly 22 characters (00_scope.md R7). -/
def hexval (ch : Byte) : Option Nat :=
  if 0x30 ≤ ch ∧ ch ≤ 0x39 then some (ch.toNat - 0x30)
  else if 0x41 ≤ ch ∧ ch ≤ 0x46 then some (ch.toNat - 0x41 + 10)
  else if 0x61 ≤ ch ∧ ch ≤ 0x66 then some (ch.toNat - 0x61 + 10)
  else none

/-- `isHex(ch)` (00_scope.md R7). -/
def isHex (ch : Byte) : Bool := (hexval ch).isSome

/-- `isDigit(ch)`: one of the ten characters '0' to '9' (00_scope.md R8). -/
def isDigit (ch : Byte) : Bool := decide (0x30 ≤ ch) && decide (ch ≤ 0x39)

/-- `decval(tok)`: the number a run of decimal digits spells, most significant first (00_scope.md R8). -/
def decval (tok : List Byte) : Nat :=
  tok.foldl (fun acc ch => acc * 10 + (ch.toNat - 0x30)) 0

/-- `isWhitespace(ch)` (41_pulse_parse_segment.md R131). -/
def isWhitespace (p : Params) (ch : Byte) : Bool := p.whitespace.contains ch

/-- An ENC operand as a realisation with OPW-bit operands holds it: its low OPW bits, here read in two's
complement (30_encoding.md R71, D4). The unbounded reading keeps the integer. -/
def narrowOperand (p : Params) (n : Int) : Int :=
  match p.opw with
  | none => n
  | some w => (BitVec.ofInt w n).toInt

/-- A duration or a threshold as a realisation with DUR_W bits holds it, saturating at `2^DUR_W - 1`
(41_pulse_parse_segment.md R136). The unbounded reading keeps the number. -/
def saturate (p : Params) (n : Nat) : Nat :=
  match p.durW with
  | none => n
  | some w => min n (2 ^ w - 1)

/-- "The effective threshold is `T` when TEN is 1 and `THRESH_DEFAULT = 700` when TEN is 0"
(30_encoding.md R72). -/
def effectiveThreshold (p : Params) (threshold : Option Nat) : Nat :=
  match threshold with
  | some t => saturate p t
  | none => threshDefault

end Sys2Proof.Machine
end

