-- ==== Sys2Proof/Machine/PulseFrame.lean ====
section
/-! DEFINITION. Unit PD, stage 3: decodeFrame (42_pulse_frame_decode.md). -/

namespace Sys2Proof.Machine

/-- A leading zero-valued placeholder mark dropped, at most one (42_pulse_frame_decode.md R151). -/
def dropPlaceholder (frame : List Nat) : List Nat :=
  match frame with
  | 0 :: rest => rest
  | _ => frame

/-- The (mark, space) pairs; an unpaired last pulse is part of no pair (42_pulse_frame_decode.md R152). -/
def pairUp : List Nat → List (Nat × Nat)
  | mark :: space :: rest => (mark, space) :: pairUp rest
  | _ => []

/-- The interior pairs: all but the header pair and the end pair (42_pulse_frame_decode.md R154). -/
def interiorPairs (pairs : List (Nat × Nat)) : List (Nat × Nat) := (pairs.drop 1).dropLast

/-- The walk over the interior pairs: a space above 3000 stops it before the bit test, any other space
gives one bit (42_pulse_frame_decode.md R155, R156). -/
def classifyBits (threshold : Nat) : List (Nat × Nat) → List Bool
  | [] => []
  | (_, space) :: rest =>
    if artifactMin < space then []
    else decide (threshold < space) :: classifyBits threshold rest

/-- The value of a bit sequence, least significant bit first (42_pulse_frame_decode.md R158). -/
def bitsValue : List Bool → Nat
  | [] => 0
  | b :: rest => b.toNat + 2 * bitsValue rest

/-- The count after the placeholder drop is odd and the realisation fails such frames
(42_pulse_frame_decode.md R152, ODD_TAIL). -/
def oddTailFails (odd : OddTail) (pulses : List Nat) : Bool :=
  odd == .fail && pulses.length % 2 == 1

/-- `decodeFrame(frame, threshold)` (42_pulse_frame_decode.md R150). -/
def decodeFrame (odd : OddTail) (frame : List Nat) (threshold : Nat) : Option Byte :=
  let pulses := dropPlaceholder frame
  let pairs := pairUp pulses
  if oddTailFails odd pulses then none
  else if pairs.length < minPairs then none
  else
    let bits := classifyBits threshold (interiorPairs pairs)
    if bits.length = nbits then some (BitVec.ofNat 8 (bitsValue bits)) else none

end Sys2Proof.Machine
end

