-- ==== Sys2Proof/Machine/PulseParse.lean ====
section
/-! DEFINITION. Unit PD, stages 1 and 2: parse and segmentFrames (41_pulse_parse_segment.md). -/

namespace Sys2Proof.Machine

/-- The code of the separator ',' (30_encoding.md R80). -/
def comma : Byte := 0x2C

/-- A string cut at every comma; `n` commas give `n + 1` tokens (30_encoding.md R80). -/
def splitCommas : List Byte → List (List Byte)
  | [] => [[]]
  | ch :: rest =>
    if ch = comma then [] :: splitCommas rest
    else
      match splitCommas rest with
      | tok :: toks => (ch :: tok) :: toks
      | [] => [[ch]]

/-- One pulse per non-empty token, in order, or MalformedPulseToken at a token with a character that is
no digit (41_pulse_parse_segment.md R132 to R134). -/
def parseTokens (p : Params) : List (List Byte) → Except ErrKind (List Nat)
  | [] => .ok []
  | [] :: toks => parseTokens p toks
  | tok :: toks =>
    if tok.all isDigit then
      match parseTokens p toks with
      | .ok train => .ok (saturate p (decval tok) :: train)
      | .error e => .error e
    else .error .malformedPulseToken

/-- `parse(raw)` (41_pulse_parse_segment.md R130): white space removed everywhere first (R131). -/
def parse (p : Params) (raw : List Byte) : Except ErrKind (List Nat) :=
  parseTokens p (splitCommas (raw.filter (fun ch => !isWhitespace p ch)))

/-- The walk of segmentFrames with the current frame `cur` (41_pulse_parse_segment.md R140): a pulse above
5000 that is not the last of the train closes the frame it belongs to (R141, R142), and what is left at the
end is the final frame (R143). -/
def segmentFrom (cur : List Nat) : List Nat → List (List Nat)
  | [] => if cur.isEmpty then [] else [cur]
  | pulse :: rest =>
    if gapMin < pulse ∧ !rest.isEmpty then (cur ++ [pulse]) :: segmentFrom [] rest
    else segmentFrom (cur ++ [pulse]) rest

/-- `segmentFrames(train)` (41_pulse_parse_segment.md R140). -/
def segmentFrames (train : List Nat) : List (List Nat) := segmentFrom [] train

end Sys2Proof.Machine
end

