-- ==== Sys2Proof/Machine/PulseTrain.lean ====
section
/-! DEFINITION. Unit PD, the whole operation PTD: cross-check of the repeated frames and field extraction
(43_pulse_train_decode.md). -/

namespace Sys2Proof.Machine

/-- The channels of a decoded byte; `unknown` is kept although no input gives it
(43_pulse_train_decode.md R175). -/
inductive Channel where
  | a
  | b
  | c
  | d
  | unknown
  deriving DecidableEq, Repr

/-- The commands of a decoded byte (43_pulse_train_decode.md R176). -/
inductive PulseCommand where
  | off
  | on
  | flicker
  | unknown
  deriving DecidableEq, Repr

/-- The CHAN code of a channel (10_state.md R25). -/
def chanCode : Channel → BitVec 3
  | .a => 1
  | .b => 2
  | .c => 3
  | .d => 4
  | .unknown => 5

/-- The CMDK code of a command (10_state.md R26). -/
def cmdCode : PulseCommand → BitVec 3
  | .off => 1
  | .on => 2
  | .flicker => 3
  | .unknown => 4

/-- `channel_bits = (byte >> 3) & 0b11` (30_encoding.md R82). -/
def channelBits (byte : Byte) : Nat := ((byte >>> 3) &&& 0b11).toNat

/-- `command_bits = (byte >> 5) & 0b11` (30_encoding.md R82). -/
def commandBits (byte : Byte) : Nat := ((byte >>> 5) &&& 0b11).toNat

/-- The mapping `1:'A', 3:'B', 2:'C', 0:'D'`, any other value `unknown` (43_pulse_train_decode.md R175). -/
def channelOf : Nat → Channel
  | 1 => .a
  | 3 => .b
  | 2 => .c
  | 0 => .d
  | _ => .unknown

/-- The mapping `0:'off', 3:'on', 2:'flicker'`, value 1 `unknown` (43_pulse_train_decode.md R176). -/
def commandOf : Nat → PulseCommand
  | 0 => .off
  | 3 => .on
  | 2 => .flicker
  | _ => .unknown

/-- The bytes of the frames that decode, in train order (43_pulse_train_decode.md R171). -/
def decodedBytes (odd : OddTail) (threshold : Nat) (train : List Nat) : List Byte :=
  (segmentFrames train).filterMap (fun frame => decodeFrame odd frame threshold)

/-- What a successful PTD leaves in unit PD, from the canonical byte and all the decoded bytes
(43_pulse_train_decode.md R173 to R178). -/
def pdResult (canonical : Byte) (decoded : List Byte) : PdRegs where
  byte := canonical
  chan := chanCode (channelOf (channelBits canonical))
  cmdk := cmdCode (commandOf (commandBits canonical))
  nframes := decoded.length
  matchFlag := framesMatch canonical decoded
  done := 1
  err := 0

/-- `decodePulseTrain(raw, threshold)`: parse of the whole string, then the frames; the decoded bytes, at
least one, or the error kind (43_pulse_train_decode.md R170 to R172, R179). -/
def decodePulseTrain (p : Params) (threshold : Option Nat) (raw : List Byte) :
    Except ErrKind (Byte × List Byte) :=
  match parse p raw with
  | .error e => .error e
  | .ok train =>
    match decodedBytes p.oddTail (effectiveThreshold p threshold) train with
    | [] => .error .noDecodableFrames
    | canonical :: others => .ok (canonical, canonical :: others)

/-- PTD (43_pulse_train_decode.md R170). A count of decoded frames that NFR_W bits cannot hold is refused
(10_state.md R27). -/
def execPtd (threshold : Option Nat) (raw : List Byte) (s : State) :
    Host.Outcome State Fault Refusal :=
  match decodePulseTrain s.params threshold raw with
  | .error e => .next (raiseError e s)
  | .ok (canonical, decoded) =>
    if countFits s.params decoded.length then .next (writePd (pdResult canonical decoded) s)
    else .refused .frameCountTooWide

end Sys2Proof.Machine
end

