-- ==== Sys2Proof/Machine/Telegram.lean ====
section
/-! DEFINITION. Unit TC, the NEC telegram codec: ENC and DEC (40_telegram_codec.md). -/

namespace Sys2Proof.Machine

/-- The four Bytes of a Telegram, byte-array index 0 to 3 (30_encoding.md R75). -/
structure TelegramBytes where
  addr : Byte
  addrInv : Byte
  cmd : Byte
  cmdInv : Byte
  deriving DecidableEq, Repr

/-- What a successful ENC or DEC leaves in unit TC: the packed Telegram, TC_ERR 0, TC_DONE 1
(40_telegram_codec.md R104, R116). -/
def tcResult (b : TelegramBytes) : TcRegs where
  telegram := pack b.addr b.addrInv b.cmd b.cmdInv
  done := 1
  err := 0

/-- `encodeTelegram(address, command)`: each operand masked, and each inverse taken from the masked Byte
(40_telegram_codec.md R100 to R102). -/
def encodeTelegram (a c : Int) : TelegramBytes :=
  ⟨mask8 a, inv8 (mask8 a), mask8 c, inv8 (mask8 c)⟩

/-- ENC (40_telegram_codec.md R100). -/
def execEnc (a c : Int) (s : State) : Host.Outcome State Fault Refusal :=
  .next (writeTc
    (tcResult (encodeTelegram (narrowOperand s.params a) (narrowOperand s.params c))) s)

/-- The text starts with `0x` or `0X` (40_telegram_codec.md R111). -/
def hasHexMark (txt : List Byte) : Bool :=
  memRead txt 0 == some 0x30 && (memRead txt 1 == some 0x78 || memRead txt 1 == some 0x58)

/-- The digit string: the text after the optional `0x` or `0X` (40_telegram_codec.md R111). -/
def digitString (txt : List Byte) : List Byte :=
  if hasHexMark txt then txt.drop 2 else txt

/-- The values of a run of hexadecimal digits, or `none` if some character is no digit. -/
def hexDigits : List Byte → Option (List Nat)
  | [] => some []
  | ch :: rest =>
    match hexval ch, hexDigits rest with
    | some v, some vs => some (v :: vs)
    | _, _ => none

/-- The byte of a two-digit group (30_encoding.md R83). -/
def groupByte (hi lo : Nat) : Byte := BitVec.ofNat 8 (hi * 16 + lo)

/-- The four groups of a telegram text, or `none` when the text does not match the structure: 7 or 8
hexadecimal digits, the last group of a 7-digit string being one digit (40_telegram_codec.md R112, R114). -/
def telegramFields (txt : List Byte) : Option TelegramBytes :=
  match hexDigits (digitString txt) with
  | some [a1, a0, b1, b0, c1, c0, d1, d0] =>
    some ⟨groupByte a1 a0, groupByte b1 b0, groupByte c1 c0, groupByte d1 d0⟩
  | some [a1, a0, b1, b0, c1, c0, d0] =>
    some ⟨groupByte a1 a0, groupByte b1 b0, groupByte c1 c0, groupByte 0 d0⟩
  | _ => none

/-- `decodeTelegram(text)`: the structure check, then the address check, then the command check
(40_telegram_codec.md R110 to R115, 60_exceptions.md R199). -/
def decodeTelegram (txt : List Byte) : Except ErrKind TelegramBytes :=
  match telegramFields txt with
  | none => .error .malformedTelegram
  | some b =>
    if b.addrInv ≠ inv8 b.addr then .error .addressInverseMismatch
    else if b.cmdInv ≠ inv8 b.cmd then .error .commandInverseMismatch
    else .ok b

/-- DEC (40_telegram_codec.md R110). -/
def execDec (txt : List Byte) (s : State) : Host.Outcome State Fault Refusal :=
  match decodeTelegram txt with
  | .error e => .next (raiseError e s)
  | .ok b => .next (writeTc (tcResult b) s)

end Sys2Proof.Machine
end

