-- ==== Sys2Proof/Machine/Dispatch.lean ====
section
/-! DEFINITION. One arm per operation (30_encoding.md R70, opcode_table.json). -/

namespace Sys2Proof.Machine

/-- The operation set is ENC, DEC and PTD (60_exceptions.md R206). -/
def exec (i : Instr) (s : State) : Host.Outcome State Fault Refusal :=
  match i with
  | .enc a c => Sys2Proof.Machine.execEnc a c s
  | .dec txt => Sys2Proof.Machine.execDec txt s
  | .ptd threshold raw => Sys2Proof.Machine.execPtd threshold raw s

end Sys2Proof.Machine
end

