-- ==== Sys2Proof/Machine/Port.lean ====
section
/-! DEFINITION. How the block takes its next request from the port: the request is sampled whole
(20_memory.md R58, R63), decoded, and held against the bounds of the realisation (R52). -/

namespace Sys2Proof.Machine

/-- The event at the head of the port taken off (assumption 1). -/
def popEvent (s : State) : State := { s with port := s.port.tail }

/-- The operation of a request, or the refusal of a request that the block does not accept
(60_exceptions.md R204). -/
def acceptRequest (p : Params) (r : Request) : Except Refusal Instr :=
  match decode r with
  | .error why => .error (.notARequest why)
  | .ok i =>
    match i.violation p with
    | some why => .error (.outOfBounds why)
    | none => .ok i

/-- The host presents one request next (assumption 2). -/
def presentRequest (r : Request) (s : State) : State := { s with port := .request r :: s.port }

end Sys2Proof.Machine
end

