-- ==== Sys2Proof/Machine/Step.lean ====
section
/-! DEFINITION. One step: the next event of the host is performed whole (20_memory.md R58). With no event
the block waits (70_reset_and_hazards.md R220). -/

namespace Sys2Proof.Machine

/-- One step of the block. A request is taken off the port and its operation performed, reset puts every
result register to zero, and with nothing to do the state stays. A refused request has no step
(60_exceptions.md R204). -/
def step (s : State) : Host.Outcome State Fault Refusal :=
  match s.port with
  | [] => .next s
  | .reset :: _ => .next (applyReset (popEvent s))
  | .request r :: _ =>
    match acceptRequest s.params r with
    | .ok i => exec i (popEvent s)
    | .error why => .refused why

/-- `s` with the request whose table bits are `w` presented next, so that `step` performs exactly it. -/
def State.withFetchWord (s : State) (nbits w : Nat) : State :=
  presentRequest (tableRequest nbits w) s

end Sys2Proof.Machine
end

