-- ==== Sys2Proof/Machine/Views.lean ====
section
/-! DEFINITION. What the host reads (10_state.md R21, R32, R33): every result register, its byte views and
status words by name, and the display views of result values (00_scope.md R9). A read changes nothing, so
it is a function of State. -/

namespace Sys2Proof.Machine

/-- The registers and views the host can read (10_state.md R20, R21, R32). -/
inductive ResultReg where
  | telegram
  | addr
  | addrInv
  | cmd
  | cmdInv
  | tcDone
  | tcErr
  | tcStatus
  | byte
  | chan
  | cmdk
  | nframes
  | matchFlag
  | pdDone
  | pdErr
  | pdStatus
  deriving DecidableEq, Repr

/-- `x[NAME]`: the value the host reads (10_state.md R33). -/
def readReg (s : State) : ResultReg → Nat
  | .telegram => s.tc.telegram.toNat
  | .addr => (addrOf s.tc.telegram).toNat
  | .addrInv => (addrInvOf s.tc.telegram).toNat
  | .cmd => (cmdOf s.tc.telegram).toNat
  | .cmdInv => (cmdInvOf s.tc.telegram).toNat
  | .tcDone => s.tc.done.toNat
  | .tcErr => s.tc.err.toNat
  | .tcStatus => (statusWord s.tc.err s.tc.done).toNat
  | .byte => s.pd.byte.toNat
  | .chan => s.pd.chan.toNat
  | .cmdk => s.pd.cmdk.toNat
  | .nframes => s.pd.nframes
  | .matchFlag => s.pd.matchFlag.toNat
  | .pdDone => s.pd.done.toNat
  | .pdErr => s.pd.err.toNat
  | .pdStatus => (statusWord s.pd.err s.pd.done).toNat

/-- The character of one upper-case hexadecimal digit, `H` of 00_scope.md R9. -/
def hexChar (d : Nat) : Byte := BitVec.ofNat 8 (if d < 10 then 0x30 + d else 0x41 + (d - 10))

/-- `hex2(b)`: two digits (00_scope.md R9). -/
def hex2 (b : Byte) : List Byte := [hexChar (b.toNat / 16), hexChar (b.toNat % 16)]

/-- `hex8(t)`: eight digits (00_scope.md R9), the canonical text of a Telegram (30_encoding.md R79) and
`toHex` (R86). -/
def hex8 (t : Telegram) : List Byte :=
  hex2 (addrOf t) ++ hex2 (addrInvOf t) ++ hex2 (cmdOf t) ++ hex2 (cmdInvOf t)

/-- `bin8(b)`: eight characters, bit 7 first (00_scope.md R9). -/
def bin8 (b : Byte) : List Byte :=
  [7, 6, 5, 4, 3, 2, 1, 0].map (fun i => if b.getLsbD i then 0x31 else 0x30)

/-- The decimal digits of `n`, most significant first; `fuel` bounds their count. -/
def decDigits : Nat → Nat → List Byte
  | 0, _ => []
  | fuel + 1, n =>
    if n < 10 then [BitVec.ofNat 8 (0x30 + n)]
    else decDigits fuel (n / 10) ++ [BitVec.ofNat 8 (0x30 + n % 10)]

/-- `dec(n)`: the shortest base-ten spelling (00_scope.md R9). -/
def decChars (n : Nat) : List Byte := decDigits (n + 1) n

end Sys2Proof.Machine
end

