-- ==== Sys2Proof/Safety.lean ====
section
/-! DEFINITION. The terms in which claims speak of the block: the invariant of 10_state.md R36 and what a
step's answer is. -/

namespace Sys2Proof.Machine

/-- The state a step answers, if it answers one. -/
def nextOf : Host.Outcome State Fault Refusal → Option State
  | .next s => some s
  | .fault _ => none
  | .refused _ => none

/-- The three ways a telegram text can begin (30_encoding.md R76): no mark, `0x`, `0X`. -/
def hexMarks : List (List Byte) := [[], [0x30, 0x78], [0x30, 0x58]]

/-- The grammar of telegram text as a whole string (30_encoding.md R76): an optional mark and then the
digit string `ds` of 7 or 8 hexadecimal digits, with nothing before or after. -/
def TelegramText (txt ds : List Byte) : Prop :=
  (∃ mark ∈ hexMarks, txt = mark ++ ds) ∧ (ds.length = 7 ∨ ds.length = 8) ∧
  ∀ ch ∈ ds, isHex ch = true

/-- The value of digit `i` of a digit string. -/
def digitAt (ds : List Byte) (i : Nat) : Nat := ((ds[i]?).bind hexval).getD 0

/-- `hexval(hi) * 16 + hexval(lo)` of the group that starts at digit `i` (30_encoding.md R83). -/
def groupAt (ds : List Byte) (i : Nat) : Nat := digitAt ds i * 16 + digitAt ds (i + 1)

/-- The last group of a digit string: digits 6 and 7, or digit 6 alone (40_telegram_codec.md R114). -/
def lastGroup (ds : List Byte) : Nat := if ds.length = 8 then groupAt ds 6 else digitAt ds 6

/-- The number a Telegram of two Bytes is: `[a][255 - a][c][255 - c]`, most significant first
(30_encoding.md R75). -/
def telegramNumber (a c : Nat) : Nat := a * 2 ^ 24 + (255 - a) * 2 ^ 16 + c * 2 ^ 8 + (255 - c)

/-- A hexadecimal letter in lower case; any other character as it is. -/
def lowerHex (ch : Byte) : Byte := if 0x41 ≤ ch ∧ ch ≤ 0x46 then ch + 0x20 else ch

/-- The pulses of a frame after the placeholder drop: one leading 0 gone (42_pulse_frame_decode.md R151). -/
def pulsesOf (frame : List Nat) : List Nat := if frame.head? = some 0 then frame.tail else frame

/-- The space of pair `k`: the pulse at index `2k + 1` (20_memory.md R57). -/
def spaceAt (pulses : List Nat) (k : Nat) : Nat := pulses.getD (2 * k + 1) 0

/-- Tokens with a comma between each and the next (30_encoding.md R80). -/
def joinCommas : List (List Byte) → List Byte
  | [] => []
  | [tok] => tok
  | tok :: toks => tok ++ comma :: joinCommas toks

/-- The raw string of a train: its pulses in base ten, with commas between (30_encoding.md R80). -/
def rawOfTrain (train : List Nat) : List Byte := joinCommas (train.map decChars)

/-- `F(b)` of 95_test_vectors.md: header pair, one data pair for each bit, end pair. -/
def frameOfByte (b : Byte) : List Nat :=
  [2000, 1000] ++ (List.range 8).flatMap (fun i => [400, if b.getLsbD i then 1000 else 400]) ++
    [2000, 5600]

/-- No character that a pulse list is written with counts as white space. -/
def plainWhitespace (p : Params) : Prop :=
  ∀ ch, isWhitespace p ch = true → ch ≠ comma ∧ isDigit ch = false

/-- Two requests of one host, one after the other: the state after both, if both have a next state. -/
def runTwo (i j : Instr) (s : State) : Option State :=
  (nextOf (exec i s)).bind (fun t => nextOf (exec j t))

/-- ENC and DEC are the operations of unit TC (opcode_table.json). -/
def isTcOp : Instr → Bool
  | .enc _ _ => true
  | .dec _ => true
  | .ptd _ _ => false

/-- 10_state.md R36 (a), (b) and TC_ERR of (e), and R225: while TC_DONE is 0 the registers are zero. -/
abbrev TcRegs.Inv (r : TcRegs) : Prop :=
  (tcOk r = true → validTelegram r.telegram = true) ∧
  (r.done = 1 → r.err ≠ 0 → r.telegram = 0) ∧
  (r.done = 0 → r = .zero) ∧
  r.err ≤ 3

/-- 10_state.md R36 (c), (d) and PD_ERR of (e), and R225: while PD_DONE is 0 the registers are zero. -/
abbrev PdRegs.Inv (r : PdRegs) : Prop :=
  (pdOk r = true →
    1 ≤ r.nframes ∧
    1 ≤ r.chan ∧ r.chan ≤ 4 ∧ r.chan = chanCode (channelOf (channelBits r.byte)) ∧
    1 ≤ r.cmdk ∧ r.cmdk ≤ 4 ∧ r.cmdk = cmdCode (commandOf (commandBits r.byte)) ∧
    (r.nframes = 1 → r.matchFlag = 1)) ∧
  (r.done = 1 → r.err ≠ 0 →
    r.byte = 0 ∧ r.chan = 0 ∧ r.cmdk = 0 ∧ r.nframes = 0 ∧ r.matchFlag = 0) ∧
  (r.done = 0 → r = .zero) ∧
  (r.err = 0 ∨ r.err = 4 ∨ r.err = 5)

/-- The invariant of every reachable state (10_state.md R36), with the width of NFRAMES (R27). -/
abbrev State.Inv (s : State) : Prop :=
  s.tc.Inv ∧ s.pd.Inv ∧ countFits s.params s.pd.nframes = true

end Sys2Proof.Machine
end

