-- ==== Sys2Proof/Certificates/Slice0/Obligations.lean ====
section
/-! DEFINITION. The statements for the provers, in the order of the spec's files. -/

open Sys2Proof Sys2Proof.Machine

/-! ### Primitives (00_scope.md) -/

/-- R5: `mask8(n)` is the Byte congruent to `n` modulo 256, and it is the low 8 bits of a register of 8 or
more bits that holds the operand, read as unsigned or as two's complement. -/
def Obligations.MaskKeepsLowEightBits : Prop :=
  (∀ n : Int, ((mask8 n).toNat : Int) = n % 256) ∧
  (∀ (w : Nat) (x : BitVec w), 8 ≤ w →
    mask8 x.toInt = x.setWidth 8 ∧ mask8 (x.toNat : Int) = x.setWidth 8)

/-- R6 with the consequences the spec derives there: `inv8(v) = 255 - v`. -/
def Obligations.InverseByteLaws : Prop :=
  ∀ v : Byte, (inv8 v).toNat = 255 - v.toNat ∧ inv8 v = v ^^^ 0xFF ∧ inv8 v = ~~~v ∧
    inv8 (inv8 v) = v ∧ v.toNat + (inv8 v).toNat = 255 ∧ v &&& inv8 v = 0 ∧ inv8 v ≠ v

/-- R7: `hexval` is defined on exactly 22 characters, and letter case does not change a value. -/
def Obligations.HexDigitValues : Prop :=
  (∀ ch : Byte, hexval ch =
    (if 0x30 ≤ ch.toNat ∧ ch.toNat ≤ 0x39 then some (ch.toNat - 0x30)
     else if 0x41 ≤ ch.toNat ∧ ch.toNat ≤ 0x46 then some (ch.toNat - 0x37)
     else if 0x61 ≤ ch.toNat ∧ ch.toNat ≤ 0x66 then some (ch.toNat - 0x57)
     else none)) ∧
  (∀ ch : Byte, isHex ch = true ↔ hexval ch ≠ none) ∧
  ((List.range 256).filter (fun n => isHex (BitVec.ofNat 8 n))).length = 22

/-- R8: `isDigit` holds for exactly the ten characters '0' to '9', and `decval` reads a run of digits in
base ten, most significant first, leading zeros without effect. -/
def Obligations.DecimalTokenValue : Prop :=
  (∀ ch : Byte, isDigit ch = true ↔ 0x30 ≤ ch.toNat ∧ ch.toNat ≤ 0x39) ∧
  (∀ (tok : List Byte) (d : Nat), d < 10 →
    decval (tok ++ [BitVec.ofNat 8 (0x30 + d)]) = decval tok * 10 + d) ∧
  (∀ d : Nat, d < 10 → decval [BitVec.ofNat 8 (0x30 + d)] = d) ∧
  (∀ tok : List Byte, decval (0x30 :: tok) = decval tok)

/-! ### State, reset, purity (00_scope.md R2, R3, 10_state.md, 70_reset_and_hazards.md) -/

/-- R35: after reset every result register, view and status word reads zero, so TC_OK is false. -/
def Obligations.ResetRegistersZero : Prop :=
  (∀ r : ResultReg, readReg State.reset r = 0) ∧ tcOk State.reset.tc = false ∧
    pdOk State.reset.pd = false

/-- R220: the reset event puts every result register to zero and does nothing else, and with no request
the block waits. -/
def Obligations.ResetEventAndWaiting : Prop :=
  (∀ (s : State) (rest : List HostEvent), s.port = .reset :: rest →
    ∃ t, step s = .next t ∧ (∀ r : ResultReg, readReg t r = 0) ∧ t.port = rest ∧
      t.params = s.params) ∧
  (∀ s : State, s.port = [] → step s = .next s)

/-- R3: every operation has exactly one outcome, a success or one error kind with no partial result. NFRAMES
is read without a bound here (the unbounded reading of R27). -/
def Obligations.EveryOperationSettles : Prop :=
  (∀ (a c : Int) (s : State), ∃ t, exec (.enc a c) s = .next t ∧ tcOk t.tc = true) ∧
  (∀ (txt : List Byte) (s : State), ∃ t, exec (.dec txt) s = .next t ∧
    (tcOk t.tc = true ∨
      ∃ e, errUnit e = .tc ∧ t.tc = { telegram := 0, done := 1, err := errCode e })) ∧
  (∀ (threshold : Option Nat) (raw : List Byte) (s : State), s.params.nfrW = none →
    ∃ t, exec (.ptd threshold raw) s = .next t ∧
      (pdOk t.pd = true ∨
        ∃ e, errUnit e = .pd ∧ t.pd =
          { byte := 0, chan := 0, cmdk := 0, nframes := 0, matchFlag := 0, done := 1,
            err := errCode e }))

/-- R2: the result of an operation depends on its operands alone, not on any stored state of either unit.
The two states share the parameters of the realisation, which are no stored state (assumption 4). -/
def Obligations.ResultDependsOnOperandsOnly : Prop :=
  ∀ (i : Instr) (s₁ s₂ t₁ : State), s₁.params = s₂.params → exec i s₁ = .next t₁ →
    ∃ t₂, exec i s₂ = .next t₂ ∧
      (isTcOp i = true → t₂.tc = t₁.tc) ∧ (isTcOp i = false → t₂.pd = t₁.pd)

/-- The frame of the three operations (10_state.md section 7): ENC and DEC touch no register of unit PD,
PTD none of unit TC, and no operation touches the model's own fields. -/
def Obligations.OperationFrame : Prop :=
  ∀ (i : Instr) (s t : State), exec i s = .next t →
    t.port = s.port ∧ t.params = s.params ∧
    (isTcOp i = true → t.pd = s.pd) ∧ (isTcOp i = false → t.tc = s.tc)

/-- R22: TC_DONE is 0 after reset, 1 after any ENC or DEC whatever its outcome, and only a reset event
returns it to 0; the second part says the same of PD_DONE (10_state.md section 3). -/
def Obligations.DoneBitsOnlyClearedByReset : Prop :=
  State.reset.tc.done = 0 ∧ State.reset.pd.done = 0 ∧
  (∀ (i : Instr) (s t : State), exec i s = .next t →
    (isTcOp i = true → t.tc.done = 1) ∧ (isTcOp i = false → t.pd.done = 1)) ∧
  (∀ s t : State, step s = .next t → s.port.head? ≠ some .reset →
    (s.tc.done = 1 → t.tc.done = 1) ∧ (s.pd.done = 1 → t.pd.done = 1))

/-- The status words (10_state.md section 6): bit 0 is DONE and bits 3:1 are ERR. -/
def Obligations.StatusWordLayout : Prop :=
  ∀ s : State,
    readReg s .tcStatus = readReg s .tcErr * 2 + readReg s .tcDone ∧
    readReg s .pdStatus = readReg s .pdErr * 2 + readReg s .pdDone

/-- An operation run again on the same operands leaves the state as it is (the spec derives that nothing
accumulates and that errors are not sticky: 60_exceptions.md section 4). -/
def Obligations.RepeatingAnOperationChangesNothing : Prop :=
  ∀ (i : Instr) (s t : State), exec i s = .next t → exec i t = .next t

/-- The overwrite hazard (70_reset_and_hazards.md section 3, derived there): an operation of a unit leaves
what it would have left without the unit's operation before it. -/
def Obligations.LaterOperationOverwritesUnit : Prop :=
  ∀ (i j : Instr) (s t : State), isTcOp i = isTcOp j → exec i s = .next t → exec j t = exec j s

/-- Operations of different units commute (20_memory.md section 6, derived there). -/
def Obligations.UnitsCommute : Prop :=
  ∀ (i j : Instr) (s : State), isTcOp i ≠ isTcOp j → runTwo i j s = runTwo j i s

/-- The invariant of 10_state.md section 11 (derived there), with the width of NFRAMES, holds at reset. -/
def Obligations.InvariantAtReset : Prop :=
  State.reset.Inv

/-- The invariant of 10_state.md section 11 (derived there) is kept by every step from every state. -/
def Obligations.InvariantKeptByStep : Prop :=
  ∀ s t : State, s.Inv → step s = .next t → t.Inv

/-- A step takes exactly the event at the head of the port and never changes the parameters
(assumptions 1 and 4). -/
def Obligations.StepConsumesOneEvent : Prop :=
  ∀ s t : State, step s = .next t → t.params = s.params ∧ t.port = s.port.tail

/-! ### Requests and their encoding (30_encoding.md section 1) -/

/-- A step performs the operation that the request at the head of the port decodes to, with that request
taken off the port (assumption 1). -/
def Obligations.StepRunsDecodedOperation : Prop :=
  ∀ (s : State) (r : Request) (rest : List HostEvent) (i : Instr),
    s.port = .request r :: rest → decode r = .ok i → i.wf s.params = true →
    step s = exec i { s with port := rest }

/-- R74: every OPSEL but 0x01, 0x02, 0x03 and 0x07 is reserved, and a reserved request is refused: it has
no step. The four others are not reserved. -/
def Obligations.ReservedOpselRefused : Prop :=
  (∀ (s : State) (r : Request) (rest : List HostEvent), s.port = .request r :: rest →
    r.opsel ≠ 0x01 → r.opsel ≠ 0x02 → r.opsel ≠ 0x03 → r.opsel ≠ 0x07 →
    step s = .refused (.notARequest (.reservedOpsel r.opsel))) ∧
  (∀ (opsel v : Byte) (ops : List Operand), opsel ∈ [0x01, 0x02, 0x03, 0x07] →
    decode ⟨opsel, ops⟩ ≠ .error (.reservedOpsel v))

/-- R73: the words of a DEC request; and in the unbounded reading of operands (00_scope.md section 4) those
of an ENC request and of a PTD request without and with a threshold operand (formats E and P). -/
def Obligations.RequestFormats : Prop :=
  (∀ a c : Int, decode ⟨0x01, [.int a, .int c]⟩ = .ok (.enc a c)) ∧
  (∀ txt : List Byte, decode ⟨0x02, .nat txt.length :: txt.map .char⟩ = .ok (.dec txt)) ∧
  (∀ raw : List Byte, decode ⟨0x03, .nat raw.length :: raw.map .char⟩ = .ok (.ptd none raw)) ∧
  (∀ (t : Nat) (raw : List Byte),
    decode ⟨0x07, .nat t :: .nat raw.length :: raw.map .char⟩ = .ok (.ptd (some t) raw))

/-- The words of P1 steps 1 and 2 and of P4 step 2 (95_test_vectors.md section 3) decode to the operations
they stand for, so does a PTD request with the threshold of P3 step 3 and an empty raw string, and the two
reserved OPSEL values of P5 (the second with two operand words of zero) select none. -/
def Obligations.ProgramWordsDecode : Prop :=
  decode ⟨0x01, [.int 0x00000001, .int 0x00000045]⟩ = .ok (.enc 1 0x45) ∧
  decode ⟨0x02, [.nat 8, .char 0x30, .char 0x31, .char 0x46, .char 0x45, .char 0x34, .char 0x35,
    .char 0x42, .char 0x41]⟩ = .ok (.dec [0x30, 0x31, 0x46, 0x45, 0x34, 0x35, 0x42, 0x41]) ∧
  decode ⟨0x03, [.nat 4, .char 0x31, .char 0x32, .char 0x2C, .char 0x78]⟩ =
    .ok (.ptd none [0x31, 0x32, 0x2C, 0x78]) ∧
  decode ⟨0x07, [.nat 0x03E8, .nat 0]⟩ = .ok (.ptd (some 1000) []) ∧
  decode ⟨0x00, []⟩ = .error (.reservedOpsel 0x00) ∧
  decode ⟨0x05, [.int 0, .int 0]⟩ = .error (.reservedOpsel 0x05)

/-- Decoding and encoding agree in both directions: every operation is decoded from its encoding, and every
request that decodes is the encoding of what it decodes to. -/
def Obligations.DecodeEncodeAgree : Prop :=
  (∀ i : Instr, decode (encode i) = .ok i) ∧
  (∀ (r : Request) (i : Instr), decode r = .ok i → encode i = r)

/-- R204: the two kinds of request that are refused and are no error kind: a reserved OPSEL, and a text or
raw string longer than TXT_MAX or RAW_MAX. -/
def Obligations.RefusedRequests : Prop :=
  (∀ (s : State) (r : Request) (rest : List HostEvent), s.port = .request r :: rest →
    r.opsel ∉ [0x01, 0x02, 0x03, 0x07] →
    step s = .refused (.notARequest (.reservedOpsel r.opsel))) ∧
  (∀ (s : State) (rest : List HostEvent) (txt : List Byte) (m : Nat),
    s.port = .request (encode (.dec txt)) :: rest → s.params.txtMax = some m → m < txt.length →
    step s = .refused (.outOfBounds .textTooLong)) ∧
  (∀ (s : State) (rest : List HostEvent) (threshold : Option Nat) (raw : List Byte) (m : Nat),
    s.port = .request (encode (.ptd threshold raw)) :: rest → s.params.rawMax = some m →
    m < raw.length → step s = .refused (.outOfBounds .rawTooLong))

/-! ### Unit TC: ENC (40_telegram_codec.md section 1) -/

/-- R100, R102, R103, R104: ENC completes on every operand, with the packed Telegram of the masked Bytes, in
a state that differs in the registers of unit TC only. -/
def Obligations.EncResult : Prop :=
  ∀ (a c : Int) (s : State), s.params.legal = true →
    ∃ t, exec (.enc a c) s = .next t ∧
      t.tc.telegram.toNat = telegramNumber (a % 256).toNat (c % 256).toNat ∧
      t.tc.err = 0 ∧ t.tc.done = 1 ∧ tcOk t.tc = true ∧ validTelegram t.tc.telegram = true ∧
      t.pd = s.pd ∧ t.port = s.port ∧ t.params = s.params

/-- R101: only the low 8 bits of each operand matter, whatever the operand width of 8 or more bits, and
nothing records a truncation. -/
def Obligations.EncUsesLowEightBits : Prop :=
  (∀ (a c j k : Int) (s : State), s.params.legal = true →
    exec (.enc (a + 256 * j) (c + 256 * k)) s = exec (.enc a c) s) ∧
  (∀ (a c : Int) (w : Nat) (s : State), 8 ≤ w → s.params.legal = true →
    ∃ t u, exec (.enc a c) s = .next t ∧
      exec (.enc a c) { s with params := { s.params with opw := some w } } = .next u ∧
      u.tc = t.tc ∧ t.tc.err = 0) ∧
  (∀ s : State, s.params.legal = true →
    exec (.enc 256 256) s = exec (.enc 0 0) s ∧
    exec (.enc 0x1FF 0x1FF) s = exec (.enc 0xFF 0xFF) s ∧
    exec (.enc (-1) (-1)) s = exec (.enc 0xFF 0xFF) s)

/-- The properties of ENC the spec derives in 40_telegram_codec.md section 1 (a), (b), (c), (e): always
valid, injective on Bytes, the four corner Telegrams, the byte sum 510 and the exclusive or 0xFF. -/
def Obligations.EncTelegramProperties : Prop :=
  (∀ (a c : Int) (s t : State), exec (.enc a c) s = .next t →
    validTelegram t.tc.telegram = true ∧
    readReg t .addr + readReg t .addrInv + readReg t .cmd + readReg t .cmdInv = 510 ∧
    addrOf t.tc.telegram ^^^ addrInvOf t.tc.telegram = 0xFF ∧
    cmdOf t.tc.telegram ^^^ cmdInvOf t.tc.telegram = 0xFF) ∧
  (∀ (a c a' c' : Byte) (s t t' : State), s.params.legal = true →
    exec (.enc a.toNat c.toNat) s = .next t → exec (.enc a'.toNat c'.toNat) s = .next t' →
    t.tc.telegram = t'.tc.telegram → a = a' ∧ c = c') ∧
  (∀ s : State, s.params.legal = true →
    (nextOf (exec (.enc 0 0) s)).map (·.tc.telegram) = some 0x00FF00FF ∧
    (nextOf (exec (.enc 0xFF 0xFF) s)).map (·.tc.telegram) = some 0xFF00FF00 ∧
    (nextOf (exec (.enc 0 0xFF) s)).map (·.tc.telegram) = some 0x00FFFF00 ∧
    (nextOf (exec (.enc 0xFF 0) s)).map (·.tc.telegram) = some 0xFF0000FF)

/-- The display views after an ENC, on the example of 40_telegram_codec.md section 1, and the three
spellings of the example byte of 43_pulse_train_decode.md section 1. -/
def Obligations.DisplayViewsOfExamples : Prop :=
  (∃ t, exec (.enc 0x01 0x45) State.reset = .next t ∧
    hex2 (addrOf t.tc.telegram) = [0x30, 0x31] ∧ hex2 (addrInvOf t.tc.telegram) = [0x46, 0x45] ∧
    hex2 (cmdOf t.tc.telegram) = [0x34, 0x35] ∧ hex2 (cmdInvOf t.tc.telegram) = [0x42, 0x41] ∧
    hex8 t.tc.telegram = [0x30, 0x31, 0x46, 0x45, 0x34, 0x35, 0x42, 0x41] ∧
    bin8 (cmdOf t.tc.telegram) = [0x30, 0x31, 0x30, 0x30, 0x30, 0x31, 0x30, 0x31] ∧
    bin8 (cmdInvOf t.tc.telegram) = [0x31, 0x30, 0x31, 0x31, 0x31, 0x30, 0x31, 0x30]) ∧
  decChars 13 = [0x31, 0x33] ∧ hex2 13 = [0x30, 0x44] ∧
  bin8 13 = [0x30, 0x30, 0x30, 0x30, 0x31, 0x31, 0x30, 0x31]

/-! ### Unit TC: DEC (40_telegram_codec.md section 2, 60_exceptions.md) -/

/-- R191: MalformedTelegram exactly when the text does not match the grammar of telegram text. -/
def Obligations.DecMalformedExactly : Prop :=
  ∀ (txt : List Byte) (s : State), ∃ t, exec (.dec txt) s = .next t ∧
    (t.tc.err = 1 ↔ ¬ ∃ ds, TelegramText txt ds)

/-- R192: AddressInverseMismatch exactly when the text is well formed and the second byte is not `255 -` the
first. -/
def Obligations.DecAddressMismatchExactly : Prop :=
  ∀ (txt : List Byte) (s : State), ∃ t, exec (.dec txt) s = .next t ∧
    (t.tc.err = 2 ↔ ∃ ds, TelegramText txt ds ∧ groupAt ds 2 ≠ 255 - groupAt ds 0)

/-- R193: CommandInverseMismatch exactly when the text is well formed, the address check passed and the
fourth byte is not `255 -` the third. -/
def Obligations.DecCommandMismatchExactly : Prop :=
  ∀ (txt : List Byte) (s : State), ∃ t, exec (.dec txt) s = .next t ∧
    (t.tc.err = 3 ↔ ∃ ds, TelegramText txt ds ∧ groupAt ds 2 = 255 - groupAt ds 0 ∧
      lastGroup ds ≠ 255 - groupAt ds 4)

/-- R116: a well-formed text whose two checks pass completes with the canonical Telegram of its address and
command, in a state that differs in the registers of unit TC only. -/
def Obligations.DecSuccessResult : Prop :=
  ∀ (txt ds : List Byte) (s : State), TelegramText txt ds →
    groupAt ds 2 = 255 - groupAt ds 0 → lastGroup ds = 255 - groupAt ds 4 →
    ∃ t, exec (.dec txt) s = .next t ∧
      t.tc.telegram.toNat = telegramNumber (groupAt ds 0) (groupAt ds 4) ∧
      t.tc.err = 0 ∧ t.tc.done = 1 ∧
      readReg t .addr = groupAt ds 0 ∧ readReg t .cmd = groupAt ds 4 ∧
      t.pd = s.pd ∧ t.port = s.port ∧ t.params = s.params

/-- R196: a failing operation writes the code of its error kind and DONE, and zero in every other result
register of its unit; nothing of the other unit is touched. -/
def Obligations.FailureZeroesUnit : Prop :=
  (∀ (txt : List Byte) (s : State) (e : ErrKind), decodeTelegram txt = .error e →
    ∃ t, exec (.dec txt) s = .next t ∧ t.tc.telegram = 0 ∧ t.tc.err = errCode e ∧
      t.tc.done = 1 ∧ t.pd = s.pd ∧ t.port = s.port ∧ t.params = s.params) ∧
  (∀ (threshold : Option Nat) (raw : List Byte) (s : State) (e : ErrKind),
    decodePulseTrain s.params threshold raw = .error e →
    ∃ t, exec (.ptd threshold raw) s = .next t ∧ t.pd.byte = 0 ∧ t.pd.chan = 0 ∧ t.pd.cmdk = 0 ∧
      t.pd.nframes = 0 ∧ t.pd.matchFlag = 0 ∧ t.pd.err = errCode e ∧ t.pd.done = 1 ∧
      t.tc = s.tc ∧ t.port = s.port ∧ t.params = s.params)

/-- A successful DEC leaves the state that ENC of its address and command leaves
(40_telegram_codec.md section 2, derived there). -/
def Obligations.DecSuccessEqualsEnc : Prop :=
  ∀ (txt : List Byte) (s t : State), s.params.legal = true → exec (.dec txt) s = .next t →
    t.tc.err = 0 →
    exec (.enc (readReg t .addr : Int) (readReg t .cmd : Int)) s = .next t

/-- The round trip (40_telegram_codec.md section 2, derived there): the canonical text of ENC's Telegram,
with or without a mark in front and in either letter case, decodes to the state ENC left. -/
def Obligations.EncDecRoundTrip : Prop :=
  ∀ (a c : Byte) (mark : List Byte) (s t : State), s.params.legal = true → mark ∈ hexMarks →
    exec (.enc a.toNat c.toNat) s = .next t →
    exec (.dec (mark ++ hex8 t.tc.telegram)) s = .next t ∧
    exec (.dec (mark ++ (hex8 t.tc.telegram).map lowerHex)) s = .next t ∧
    readReg t .addr = a.toNat ∧ readReg t .cmd = c.toNat

/-- Inverse detection (40_telegram_codec.md section 2, derived there): one digit of a valid telegram changed
to another value is an AddressInverseMismatch in the first two bytes and a CommandInverseMismatch in the
last two. -/
def Obligations.OneWrongDigitDetected : Prop :=
  ∀ (a c ch : Byte) (k : Nat) (mark : List Byte) (s t : State), s.params.legal = true →
    mark ∈ hexMarks → exec (.enc a.toNat c.toNat) s = .next t → k < 8 → isHex ch = true →
    hexval ch ≠ some (digitAt (hex8 t.tc.telegram) k) →
    ∃ u, exec (.dec (mark ++ (hex8 t.tc.telegram).set k ch)) s = .next u ∧
      u.tc.err = if k < 4 then 2 else 3

/-- Letter case and mark do not change the result (40_telegram_codec.md section 2, derived there), with the
two texts the spec names. -/
def Obligations.CaseAndMarkDoNotMatter : Prop :=
  (∀ (ds mark : List Byte) (s : State), (∀ ch ∈ ds, isHex ch = true) → mark ∈ hexMarks →
    exec (.dec (mark ++ ds)) s = exec (.dec ds) s ∧
    exec (.dec (mark ++ ds.map lowerHex)) s = exec (.dec ds) s) ∧
  (∀ s : State,
    exec (.dec [0x30, 0x78, 0x30, 0x31, 0x46, 0x45, 0x31, 0x32, 0x45, 0x44]) s =
      .next { s with tc := { telegram := 0x01FE12ED, done := 1, err := 0 } } ∧
    exec (.dec [0x30, 0x31, 0x66, 0x65, 0x31, 0x32, 0x65, 0x64]) s =
      .next { s with tc := { telegram := 0x01FE12ED, done := 1, err := 0 } })

/-- The 7-digit form (40_telegram_codec.md section 2, derived there): a one-digit last group `d` succeeds
exactly when `hexval d` is the inverse of the command, which needs a command of 0xF0 or more, and then
decodes as the 8-digit form with '0' before `d`. -/
def Obligations.SevenDigitForm : Prop :=
  ∀ (a c d : Byte) (s : State), isHex d = true →
    ∃ t, exec (.dec (hex2 a ++ hex2 (inv8 a) ++ hex2 c ++ [d])) s = .next t ∧
      (hexval d = some (255 - c.toNat) → 0xF0 ≤ c.toNat ∧ t.tc.err = 0 ∧
        t.tc.telegram.toNat = telegramNumber a.toNat c.toNat) ∧
      (hexval d ≠ some (255 - c.toNat) → t.tc.err = 3) ∧
      exec (.dec (hex2 a ++ hex2 (inv8 a) ++ hex2 c ++ [0x30, d])) s = .next t

/-- R122: a digit string that is too short, or a character after the mark that is no hexadecimal digit, is
a MalformedTelegram, whatever the other characters are. -/
def Obligations.DecBoundary : Prop :=
  (∀ (ds mark : List Byte) (s : State), mark ∈ hexMarks → ds.length < 6 →
    ∃ t, exec (.dec (mark ++ ds)) s = .next t ∧ t.tc.err = 1) ∧
  (∀ (ds mark : List Byte) (ch : Byte) (s : State), mark ∈ [[0x30, 0x78], [0x30, 0x58]] → ch ∈ ds →
    isHex ch = false → ∃ t, exec (.dec (mark ++ ds)) s = .next t ∧ t.tc.err = 1) ∧
  (∀ (txt : List Byte) (ch : Byte) (s : State), (∀ rest, txt ≠ 0x30 :: 0x78 :: rest) →
    (∀ rest, txt ≠ 0x30 :: 0x58 :: rest) → ch ∈ txt → isHex ch = false →
    ∃ t, exec (.dec txt) s = .next t ∧ t.tc.err = 1) ∧
  (∀ ch : Byte, (ch ∈ [0x67, 0x47, 0x78, 0x20, 0x2D, 0x2B, 0x5F, 0x2C] ∨ 0x7F < ch) →
    isHex ch = false)

/-- The bounds on a text's length (40_telegram_codec.md section 2, derived there): fewer than 7 or more than
10 characters is malformed, 9 or 10 need a mark, and 7 or 8 must not have one. -/
def Obligations.DecLengthBounds : Prop :=
  ∀ (txt : List Byte) (s : State), ∃ t, exec (.dec txt) s = .next t ∧
    (txt.length < 7 → t.tc.err = 1) ∧ (10 < txt.length → t.tc.err = 1) ∧
    (9 ≤ txt.length → t.tc.err ≠ 1 → hasHexMark txt = true) ∧
    (txt.length ≤ 8 → t.tc.err ≠ 1 → hasHexMark txt = false)

/-! ### Unit PD: parse and segmentFrames (41_pulse_parse_segment.md) -/

/-- R194: MalformedPulseToken exactly when some non-empty token has a character that is no digit. White
space is removed and commas separate tokens, so such a character is one of the raw string that is neither
white space nor a comma nor a digit. -/
def Obligations.MalformedTokenExactly : Prop :=
  ∀ (threshold : Option Nat) (raw : List Byte) (s : State),
    ((∃ ch ∈ raw, isWhitespace s.params ch = false ∧ ch ≠ comma ∧ isDigit ch = false) →
      ∃ t, exec (.ptd threshold raw) s = .next t ∧ t.pd.err = 4) ∧
    (∀ t, exec (.ptd threshold raw) s = .next t → t.pd.err = 4 →
      ∃ ch ∈ raw, isWhitespace s.params ch = false ∧ ch ≠ comma ∧ isDigit ch = false)

/-- R131: white space vanishes wherever it stands, and the default set is the six codes. -/
def Obligations.WhitespaceVanishes : Prop :=
  (∀ (threshold : Option Nat) (before after : List Byte) (ch : Byte) (s : State),
    isWhitespace s.params ch = true →
    exec (.ptd threshold (before ++ ch :: after)) s = exec (.ptd threshold (before ++ after)) s) ∧
  (∀ ch : Byte, isWhitespace unboundedParams ch = true ↔
    ch ∈ [0x09, 0x0A, 0x0B, 0x0C, 0x0D, 0x20]) ∧
  parse unboundedParams [0x31, 0x20, 0x30, 0x30, 0x30] = .ok [1000]

/-- Empty tokens are skipped (41_pulse_parse_segment.md section 1): a leading comma, a trailing comma and a
second comma in a row add nothing. -/
def Obligations.EmptyTokensSkipped : Prop :=
  (∀ (p : Params) (raw : List Byte), parse p (comma :: raw) = parse p raw) ∧
  (∀ (p : Params) (raw : List Byte), parse p (raw ++ [comma]) = parse p raw) ∧
  (∀ (p : Params) (before after : List Byte),
    parse p (before ++ comma :: comma :: after) = parse p (before ++ comma :: after))

/-- R134: each valid token adds one pulse, its base-ten value, in the order of the tokens, and an empty
token adds none; so the raw string of any train parses to that train. In the unbounded reading. -/
def Obligations.ParseReadsTokensInOrder : Prop :=
  (∀ (p : Params) (toks : List (List Byte)), p.durW = none → plainWhitespace p →
    (∀ tok ∈ toks, ∀ ch ∈ tok, isDigit ch = true) →
    parse p (joinCommas toks) = .ok ((toks.filter (fun tok => !tok.isEmpty)).map decval)) ∧
  (∀ (p : Params) (train : List Nat), p.durW = none → plainWhitespace p →
    parse p (rawOfTrain train) = .ok train)

/-- R141, R142, R143: a pulse above 5000 that is not the last closes its frame and belongs to it, no other
pulse closes a frame, and what is left is the final frame. -/
def Obligations.SegmentFramesCuts : Prop :=
  segmentFrames [] = [] ∧
  (∀ (low rest : List Nat) (gap next : Nat), (∀ x ∈ low, x ≤ 5000) → 5000 < gap →
    segmentFrames (low ++ gap :: next :: rest) = (low ++ [gap]) :: segmentFrames (next :: rest)) ∧
  (∀ (low : List Nat) (last : Nat), (∀ x ∈ low, x ≤ 5000) →
    segmentFrames (low ++ [last]) = [low ++ [last]])

/-- The properties of segmentFrames that the spec derives (41_pulse_parse_segment.md section 2): (a) the
frames joined are the train, (b) none is empty, (c) every frame but the last ends in its one pulse above
5000, (d) the last has none except possibly its last, (e) their count, (f) the empty train. -/
def Obligations.SegmentFramesProperties : Prop :=
  ∀ train : List Nat,
    (segmentFrames train).flatten = train ∧
    (∀ f ∈ segmentFrames train, f ≠ []) ∧
    (∀ f ∈ (segmentFrames train).dropLast,
      (∃ gap, f.getLast? = some gap ∧ 5000 < gap) ∧ ∀ x ∈ f.dropLast, x ≤ 5000) ∧
    (∀ f, (segmentFrames train).getLast? = some f → ∀ x ∈ f.dropLast, x ≤ 5000) ∧
    (train ≠ [] → (segmentFrames train).length =
      (train.dropLast.filter (fun x => decide (5000 < x))).length + 1) ∧
    (train = [] → segmentFrames train = [])

/-! ### Unit PD: decodeFrame (42_pulse_frame_decode.md) -/

/-- When decodeFrame gives a byte (42_pulse_frame_decode.md section 1, the spelled-out form derived there):
at least 10 pairs, spaces 1 to 8 at most 3000, and either 10 pairs or a ninth interior space above 3000.
With ODD_TAIL = fail an odd count after the placeholder drop gives none. -/
def Obligations.DecodableFrameExactly : Prop :=
  ∀ (odd : OddTail) (frame : List Nat) (threshold : Nat),
    (decodeFrame odd frame threshold).isSome = true ↔
      ¬ (odd = .fail ∧ (pulsesOf frame).length % 2 = 1) ∧
      10 ≤ (pulsesOf frame).length / 2 ∧
      (∀ k, 1 ≤ k → k ≤ 8 → spaceAt (pulsesOf frame) k ≤ 3000) ∧
      ((pulsesOf frame).length / 2 = 10 ∨ 3000 < spaceAt (pulsesOf frame) 9)

/-- R156, R158: each bit of the byte is 1 exactly when the space of its pair is above the threshold, pair 1
giving bit 0 and pair 8 bit 7; at the default threshold a space of 700 is 0 and one of 701 is 1. -/
def Obligations.FrameByteBits : Prop :=
  (∀ (odd : OddTail) (frame : List Nat) (threshold : Nat) (b : Byte),
    decodeFrame odd frame threshold = some b →
    (∀ k, k < 8 → b.getLsbD k = decide (threshold < spaceAt (pulsesOf frame) (k + 1))) ∧
    b.toNat = ((List.range 8).map (fun k =>
      (if threshold < spaceAt (pulsesOf frame) (k + 1) then 1 else 0) * 2 ^ k)).sum) ∧
  classifyBits 700 [(400, 700), (400, 701)] = [false, true]

/-- R151: one leading 0 is dropped on every frame, and at most one: in a frame that starts with two zeros
the second is the header mark, which no test reads. A first pulse of any other value stays. -/
def Obligations.PlaceholderDroppedOnce : Prop :=
  ∀ (odd : OddTail) (frame : List Nat) (threshold mark : Nat), mark ≠ 0 →
    decodeFrame odd (0 :: mark :: frame) threshold = decodeFrame odd (mark :: frame) threshold ∧
    decodeFrame odd (0 :: 0 :: frame) threshold = decodeFrame odd (mark :: frame) threshold ∧
    decodeFrame odd [0] threshold = decodeFrame odd [] threshold ∧
    dropPlaceholder (mark :: frame) = mark :: frame ∧ dropPlaceholder (0 :: 0 :: frame) = 0 :: frame

/-- Neither the header pair nor the end pair is ever examined, nor is an unpaired last pulse (a header mark
of 0 would be the placeholder): 42_pulse_frame_decode.md section 1, the last sentence of R154 and R152. -/
def Obligations.HeaderAndEndUnread : Prop :=
  ∀ (odd : OddTail) (mid tail tail' : List Nat) (threshold m s e g m' s' e' g' : Nat),
    m ≠ 0 → m' ≠ 0 → mid.length % 2 = 0 → tail.length ≤ 1 → tail'.length = tail.length →
    decodeFrame odd (m :: s :: (mid ++ e :: g :: tail)) threshold =
      decodeFrame odd (m' :: s' :: (mid ++ e' :: g' :: tail')) threshold

/-- What the threshold can do (42_pulse_frame_decode.md section 2, derived there): it does not decide
whether a frame is decodable, at 3000 or more every byte is 0, and at 0 a bit is 1 exactly when its space is
not 0. -/
def Obligations.ThresholdReach : Prop :=
  ∀ (odd : OddTail) (frame : List Nat) (t u : Nat),
    ((decodeFrame odd frame t).isSome = (decodeFrame odd frame u).isSome) ∧
    (3000 ≤ t → ∀ b, decodeFrame odd frame t = some b → b = 0) ∧
    (∀ b, decodeFrame odd frame 0 = some b →
      ∀ k, k < 8 → (b.getLsbD k = true ↔ spaceAt (pulsesOf frame) (k + 1) ≠ 0))

/-- Inside PTD no interior space is above 5000 (42_pulse_frame_decode.md section 2, derived there). -/
def Obligations.InteriorSpacesBelowGap : Prop :=
  ∀ (train frame : List Nat) (pair : Nat × Nat), frame ∈ segmentFrames train →
    pair ∈ interiorPairs (pairUp (pulsesOf frame)) → pair.2 ≤ 5000

/-! ### Unit PD: PTD (43_pulse_train_decode.md) -/

/-- R173, R174, R178: from a raw string that parses and has a decodable frame, PTD completes with the first
byte as canonical, the codes of its channel and command, the count of decoded frames and the match flag, in
a state that differs in the registers of unit PD only. Both forms, with T and without. -/
def Obligations.PtdSuccessResult : Prop :=
  ∀ (threshold : Option Nat) (raw : List Byte) (s : State) (train : List Nat) (b : Byte)
    (others : List Byte),
    parse s.params raw = .ok train →
    (segmentFrames train).filterMap (fun f =>
      decodeFrame s.params.oddTail f (threshold.elim 700 (saturate s.params))) = b :: others →
    (∀ w, s.params.nfrW = some w → others.length + 1 < 2 ^ w) →
    ∃ t, exec (.ptd threshold raw) s = .next t ∧
      t.pd.byte = b ∧
      t.pd.chan = chanCode (channelOf (b.toNat / 8 % 4)) ∧
      t.pd.cmdk = cmdCode (commandOf (b.toNat / 32 % 4)) ∧
      t.pd.nframes = others.length + 1 ∧
      (t.pd.matchFlag = 1 ↔ ∀ x ∈ others, x = b) ∧ (t.pd.matchFlag = 0 ↔ ∃ x ∈ others, x ≠ b) ∧
      t.pd.err = 0 ∧ t.pd.done = 1 ∧ pdOk t.pd = true ∧
      t.tc = s.tc ∧ t.port = s.port ∧ t.params = s.params

/-- R175, R176: the channel and command codes of every byte, by its bits 4:3 and 6:5; no byte gives the
channel `unknown`, and the command `unknown` is a success. -/
def Obligations.ChannelAndCommandTables : Prop :=
  (∀ b : Byte, chanCode (channelOf (channelBits b)) =
    (if b.toNat / 8 % 4 = 0 then 4 else if b.toNat / 8 % 4 = 1 then 1
     else if b.toNat / 8 % 4 = 2 then 3 else 2)) ∧
  (∀ b : Byte, cmdCode (commandOf (commandBits b)) =
    (if b.toNat / 32 % 4 = 0 then 1 else if b.toNat / 32 % 4 = 1 then 4
     else if b.toNat / 32 % 4 = 2 then 3 else 2)) ∧
  (∀ b : Byte, channelOf (channelBits b) ≠ .unknown) ∧
  (∀ n : Nat, 4 ≤ n → channelOf n = .unknown) ∧
  (∀ (threshold : Option Nat) (raw : List Byte) (s t : State), exec (.ptd threshold raw) s = .next t →
    t.pd.cmdk = 4 → t.pd.err = 0 ∧ pdOk t.pd = true)

/-- A capture of any number of frames `F(b)` (95_test_vectors.md), one after the other, decodes to the
first byte with all frames counted and MATCH saying whether they agree (43_pulse_train_decode.md section 2);
any threshold from 400 to 999 reads it alike. -/
def Obligations.CaptureOfFramesDecodes : Prop :=
  ∀ (b : Byte) (others : List Byte) (threshold : Option Nat) (s : State),
    s.params.legal = true → s.params.nfrW = none → plainWhitespace s.params →
    400 ≤ threshold.getD 700 → threshold.getD 700 < 1000 →
    ∃ t, exec (.ptd threshold (rawOfTrain ((b :: others).flatMap frameOfByte))) s = .next t ∧
      t.pd.byte = b ∧ t.pd.nframes = others.length + 1 ∧
      (t.pd.matchFlag = 1 ↔ ∀ x ∈ others, x = b) ∧ t.pd.err = 0 ∧ t.pd.done = 1 ∧ t.tc = s.tc

/-- R195: NoDecodableFrames exactly when the raw string parsed and no frame of the train gave a byte. -/
def Obligations.NoDecodableFramesExactly : Prop :=
  ∀ (threshold : Option Nat) (raw : List Byte) (s : State),
    ((∃ train, parse s.params raw = .ok train ∧ ∀ f ∈ segmentFrames train,
        decodeFrame s.params.oddTail f (effectiveThreshold s.params threshold) = none) →
      ∃ t, exec (.ptd threshold raw) s = .next t ∧ t.pd.err = 5) ∧
    (∀ t, exec (.ptd threshold raw) s = .next t → t.pd.err = 5 →
      ∃ train, parse s.params raw = .ok train ∧ ∀ f ∈ segmentFrames train,
        decodeFrame s.params.oddTail f (effectiveThreshold s.params threshold) = none)

/-- Fewer than 20 values and no large gap give NoDecodableFrames, and NFRAMES is at most the count of frames
segmented (43_pulse_train_decode.md section 2, derived there). -/
def Obligations.ShortTrainUndecodable : Prop :=
  (∀ (threshold : Option Nat) (raw : List Byte) (s : State) (train : List Nat),
    parse s.params raw = .ok train → train.length < 20 → (∀ x ∈ train, x ≤ 5000) →
    ∃ t, exec (.ptd threshold raw) s = .next t ∧ t.pd.err = 5) ∧
  (∀ (threshold : Option Nat) (raw : List Byte) (s t : State) (train : List Nat),
    parse s.params raw = .ok train → exec (.ptd threshold raw) s = .next t →
    t.pd.nframes ≤ (segmentFrames train).length)

/-- Without a threshold operand the threshold is 700 (43_pulse_train_decode.md section 2). -/
def Obligations.DefaultThresholdIs700 : Prop :=
  ∀ (raw : List Byte) (s : State), s.params.legal = true →
    exec (.ptd none raw) s = exec (.ptd (some 700) raw) s

/-- R136: a realisation that holds durations and the threshold in 13 or more bits parses with saturation at
the largest duration, and gives the result of the unbounded reading on every input; a threshold above the
largest duration behaves like it. -/
def Obligations.SaturationChangesNothing : Prop :=
  ∀ (threshold : Option Nat) (raw : List Byte) (s : State) (w : Nat), 13 ≤ w →
    decodePulseTrain { s.params with durW := some w } threshold raw =
      decodePulseTrain { s.params with durW := none } threshold raw ∧
    (s.params.nfrW = none →
      ∃ t u, exec (.ptd threshold raw) { s with params := { s.params with durW := none } } = .next t ∧
        exec (.ptd threshold raw) { s with params := { s.params with durW := some w } } = .next u ∧
        u.pd = t.pd ∧ u.tc = t.tc) ∧
    (∀ train, parse { s.params with durW := none } raw = .ok train →
      parse { s.params with durW := some w } raw = .ok (train.map (fun p => min p (2 ^ w - 1))))

/-- R27: NFRAMES counts the frames that gave a byte, at least 1 on success, and a count that does not fit
in NFR_W bits is refused. -/
def Obligations.FrameCountKeptOrRefused : Prop :=
  ∀ (threshold : Option Nat) (raw : List Byte) (s : State) (train : List Nat) (n : Nat),
    parse s.params raw = .ok train →
    ((segmentFrames train).filter (fun f => (decodeFrame s.params.oddTail f
      (effectiveThreshold s.params threshold)).isSome)).length = n →
    1 ≤ n →
    (countFits s.params n = true →
      ∃ t, exec (.ptd threshold raw) s = .next t ∧ t.pd.nframes = n ∧ pdOk t.pd = true) ∧
    (countFits s.params n = false →
      exec (.ptd threshold raw) s = .refused .frameCountTooWide)

/-- The code 5 of CHAN (unknown) and every code above it are never written, nor a CMDK code above 4
(30_encoding.md section 8, 93_implementation_defined.md I3 and I14). -/
def Obligations.UnwrittenCodes : Prop :=
  ∀ (threshold : Option Nat) (raw : List Byte) (s t : State),
    exec (.ptd threshold raw) s = .next t →
    t.pd.chan ≤ 4 ∧ t.pd.cmdk ≤ 4 ∧ t.pd.err ≠ 6 ∧ t.pd.err ≠ 7
end

