-- ==== Sys2Proof/Laws/Decode.lean ====
section
/-! SUPPORT. The decoder, said once: which OPSEL selects which format, and what a run of operand words is
(30_encoding.md section 1). -/

namespace Sys2Proof

/-- The four OPSEL values that select a format (30_encoding.md R70, R74). -/
theorem formatOf_eq (opsel : Byte) : formatOf opsel =
    if opsel = 0x01 then some .formatE
    else if opsel = 0x02 then some .formatD
    else if opsel = 0x03 ∨ opsel = 0x07 then some .formatP
    else none := by
  revert opsel; decide +kernel

@[simp] theorem charsOf_map_char (cs : List Byte) : charsOf (cs.map .char) = some cs := by
  induction cs with
  | nil => rfl
  | cons c cs ih => simp [charsOf, ih]

theorem eq_map_char_of_charsOf {ops : List Operand} {cs : List Byte} (h : charsOf ops = some cs) :
    ops = cs.map .char := by
  induction ops generalizing cs with
  | nil => cases h; rfl
  | cons op ops ih =>
    cases op with
    | char c =>
      obtain ⟨rest, hr, rfl⟩ := Option.map_eq_some_iff.mp h
      simp [ih hr]
    | int n => cases h
    | nat n => cases h

@[simp] theorem decodeText_encodeText (cs : List Byte) : decodeText (encodeText cs) = .ok cs := by
  simp [decodeText, encodeText]

theorem eq_encodeText_of_decodeText {ops : List Operand} {cs : List Byte}
    (h : decodeText ops = .ok cs) : ops = encodeText cs := by
  unfold decodeText at h
  split at h
  · split at h
    · rename_i n rest l hl
      split at h
      · rename_i hn
        cases h
        rw [eq_map_char_of_charsOf hl, encodeText, hn]
      · cases h
    · cases h
  · cases h

end Sys2Proof
end

