-- ==== Sys2Proof/Laws/Frame.lean ====
section
/-! SUPPORT. decodeFrame, said once: its pairs, its walk and when it gives a byte
(42_pulse_frame_decode.md). -/

namespace Sys2Proof.Machine

theorem dropPlaceholder_eq (frame : List Nat) : dropPlaceholder frame = pulsesOf frame := by
  unfold dropPlaceholder pulsesOf
  split
  · simp
  · rename_i h
    rw [if_neg]
    intro hh
    cases frame with
    | nil => simp at hh
    | cons x rest =>
      simp only [List.head?_cons, Option.some.injEq] at hh
      exact h rest (by rw [hh])

theorem pairUp_length : ∀ l : List Nat, (pairUp l).length = l.length / 2
  | [] => rfl
  | [_] => by simp [pairUp]
  | _ :: _ :: l => by simp [pairUp, pairUp_length l]; omega

/-- Pair `k` is the pulses at index `2k` and `2k + 1` (20_memory.md R57). -/
theorem pairUp_getElem? : ∀ (l : List Nat) (k : Nat), k < l.length / 2 →
    (pairUp l)[k]? = some (l.getD (2 * k) 0, spaceAt l k)
  | [], k, h => by simp at h
  | [_], k, h => by simp at h
  | _ :: _ :: _, 0, _ => rfl
  | _ :: _ :: l, k + 1, h => by
    have := pairUp_getElem? l k (by simp at h; omega)
    simp [pairUp, this, Nat.mul_add, spaceAt]

theorem interiorPairs_length (pairs : List (Nat × Nat)) :
    (interiorPairs pairs).length = pairs.length - 2 := by
  simp [interiorPairs]; omega

/-- The interior pairs are pairs 1 to `npairs - 2` (42_pulse_frame_decode.md R154). -/
theorem interiorPairs_getElem? (pairs : List (Nat × Nat)) (k : Nat) (h : k < pairs.length - 2) :
    (interiorPairs pairs)[k]? = pairs[k + 1]? := by
  simp only [interiorPairs, List.drop_one, List.getElem?_dropLast, List.length_tail,
    List.getElem?_tail]
  rw [if_pos (by omega)]

/-- The bit of pair `k` of the walk (42_pulse_frame_decode.md R156). -/
theorem classifyBits_getElem? (threshold : Nat) (l : List (Nat × Nat)) (k : Nat)
    (h : k < (classifyBits threshold l).length) :
    ∃ p, l[k]? = some p ∧ (classifyBits threshold l)[k]? = some (decide (threshold < p.2)) := by
  induction l generalizing k with
  | nil => simp [classifyBits] at h
  | cons q l ih =>
    obtain ⟨m, space⟩ := q
    unfold classifyBits at h ⊢
    split at h
    · simp at h
    · rename_i hs
      rw [if_neg hs]
      cases k with
      | zero => exact ⟨(m, space), by simp, by simp⟩
      | succ k => simpa using ih k (by simpa using h)

theorem bitsValue_testBit (bits : List Bool) (k : Nat) :
    (bitsValue bits).testBit k = bits[k]?.getD false := by
  induction bits generalizing k with
  | nil => simp [bitsValue]
  | cons b bits ih =>
    cases k with
    | zero => cases b <;> simp [bitsValue, Nat.testBit_zero]
    | succ k =>
      have h : bitsValue (b :: bits) / 2 = bitsValue bits := by
        cases b <;> simp [bitsValue]; omega
      rw [Nat.testBit_succ, h, ih]
      simp

/-- When decodeFrame gives a byte, and which (42_pulse_frame_decode.md R152, R153, R157, R158). -/
theorem decodeFrame_eq_some_iff (odd : OddTail) (frame : List Nat) (threshold : Nat) (b : Byte) :
    decodeFrame odd frame threshold = some b ↔
      oddTailFails odd (pulsesOf frame) = false ∧
      10 ≤ (pulsesOf frame).length / 2 ∧
      (classifyBits threshold (interiorPairs (pairUp (pulsesOf frame)))).length = 8 ∧
      b = BitVec.ofNat 8
        (bitsValue (classifyBits threshold (interiorPairs (pairUp (pulsesOf frame))))) := by
  unfold decodeFrame
  simp only [dropPlaceholder_eq, pairUp_length, minPairs, nbits]
  cases oddTailFails odd (pulsesOf frame) with
  | true => simp
  | false =>
    by_cases hp : (pulsesOf frame).length / 2 < 10
    · simp [hp]
    · by_cases hb :
        (classifyBits threshold (interiorPairs (pairUp (pulsesOf frame)))).length = 8
      · simp only [hp, hb, if_true, if_false, Bool.false_eq_true, Option.some.injEq, true_and]
        exact ⟨fun h => ⟨by omega, h.symm⟩, fun h => h.2.symm⟩
      · simp [hp, hb]

end Sys2Proof.Machine
end

