-- ==== Sys2Proof/Laws/State.lean ====
section
/-! SUPPORT. One lemma per field per update of State, and what each register write leaves alone. -/

namespace Sys2Proof.Machine

@[simp] theorem writeTc_tc (r : TcRegs) (s : State) : (writeTc r s).tc = r := rfl
@[simp] theorem writeTc_pd (r : TcRegs) (s : State) : (writeTc r s).pd = s.pd := rfl
@[simp] theorem writeTc_port (r : TcRegs) (s : State) : (writeTc r s).port = s.port := rfl
@[simp] theorem writeTc_params (r : TcRegs) (s : State) : (writeTc r s).params = s.params := rfl

@[simp] theorem writePd_tc (r : PdRegs) (s : State) : (writePd r s).tc = s.tc := rfl
@[simp] theorem writePd_pd (r : PdRegs) (s : State) : (writePd r s).pd = r := rfl
@[simp] theorem writePd_port (r : PdRegs) (s : State) : (writePd r s).port = s.port := rfl
@[simp] theorem writePd_params (r : PdRegs) (s : State) : (writePd r s).params = s.params := rfl

@[simp] theorem applyReset_tc (s : State) : (applyReset s).tc = .zero := rfl
@[simp] theorem applyReset_pd (s : State) : (applyReset s).pd = .zero := rfl
@[simp] theorem applyReset_port (s : State) : (applyReset s).port = s.port := rfl
@[simp] theorem applyReset_params (s : State) : (applyReset s).params = s.params := rfl

@[simp] theorem popEvent_tc (s : State) : (popEvent s).tc = s.tc := rfl
@[simp] theorem popEvent_pd (s : State) : (popEvent s).pd = s.pd := rfl
@[simp] theorem popEvent_port (s : State) : (popEvent s).port = s.port.tail := rfl
@[simp] theorem popEvent_params (s : State) : (popEvent s).params = s.params := rfl

@[simp] theorem presentRequest_tc (r : Request) (s : State) : (presentRequest r s).tc = s.tc := rfl
@[simp] theorem presentRequest_pd (r : Request) (s : State) : (presentRequest r s).pd = s.pd := rfl
@[simp] theorem presentRequest_port (r : Request) (s : State) :
    (presentRequest r s).port = .request r :: s.port := rfl
@[simp] theorem presentRequest_params (r : Request) (s : State) :
    (presentRequest r s).params = s.params := rfl

/-- The later write of a unit is the one that stays (70_reset_and_hazards.md R224). -/
@[simp] theorem writeTc_writeTc (r q : TcRegs) (s : State) :
    writeTc r (writeTc q s) = writeTc r s := rfl

@[simp] theorem writePd_writePd (r q : PdRegs) (s : State) :
    writePd r (writePd q s) = writePd r s := rfl

/-- Writes of different units commute (20_memory.md R61). -/
theorem writeTc_writePd (r : TcRegs) (q : PdRegs) (s : State) :
    writeTc r (writePd q s) = writePd q (writeTc r s) := rfl

/-- `raise E` by an error kind of unit TC is one write of that unit (60_exceptions.md R196). -/
theorem raiseError_tc (e : ErrKind) (s : State) (h : errUnit e = .tc) :
    raiseError e s = writeTc (tcFailed e) s := by
  cases e <;> first | rfl | cases h

/-- `raise E` by an error kind of unit PD is one write of that unit (60_exceptions.md R196). -/
theorem raiseError_pd (e : ErrKind) (s : State) (h : errUnit e = .pd) :
    raiseError e s = writePd (pdFailed e) s := by
  cases e <;> first | rfl | cases h

end Sys2Proof.Machine
end

