-- ==== Sys2Proof/Laws/Ops.lean ====
section
/-! SUPPORT. The byte arithmetic and the packing of a Telegram, once. -/

namespace Sys2Proof.Machine

@[simp] theorem inv8_toNat (v : Byte) : (inv8 v).toNat = 255 - v.toNat := by
  unfold inv8; bv_omega

/-- The Byte of an integer is its remainder modulo 256 (00_scope.md R5). -/
theorem mask8_toNat (n : Int) : (mask8 n).toNat = (n % 256).toNat := by
  simp [mask8, BitVec.toNat_ofInt]

/-- Packing puts the four Bytes side by side (40_telegram_codec.md R103). -/
theorem pack_eq_append (a ai c ci : Byte) : pack a ai c ci = (a ++ ai ++ c ++ ci : BitVec 32) := by
  apply BitVec.eq_of_getLsbD_eq
  intro i hi
  simp only [pack, BitVec.getLsbD_or, BitVec.getLsbD_shiftLeft, BitVec.getLsbD_setWidth,
    BitVec.getLsbD_append]
  interval_cases i <;> simp

/-- The four Bytes do not overlap, so packing is a sum (40_telegram_codec.md R103). -/
theorem pack_toNat (a ai c ci : Byte) : (pack a ai c ci).toNat =
    a.toNat * 2 ^ 24 + ai.toNat * 2 ^ 16 + c.toNat * 2 ^ 8 + ci.toNat := by
  rw [pack_eq_append]
  simp only [BitVec.toNat_append]
  rw [← Nat.shiftLeft_add_eq_or_of_lt ci.isLt, ← Nat.shiftLeft_add_eq_or_of_lt c.isLt,
    ← Nat.shiftLeft_add_eq_or_of_lt ai.isLt]
  simp only [Nat.shiftLeft_eq]
  ring

@[simp] theorem addrOf_pack (a ai c ci : Byte) : addrOf (pack a ai c ci) = a := by
  rw [pack_eq_append]
  apply BitVec.eq_of_getLsbD_eq
  intro i hi
  simp only [addrOf, BitVec.getLsbD_extractLsb', BitVec.getLsbD_append]
  interval_cases i <;> simp

@[simp] theorem addrInvOf_pack (a ai c ci : Byte) : addrInvOf (pack a ai c ci) = ai := by
  rw [pack_eq_append]
  apply BitVec.eq_of_getLsbD_eq
  intro i hi
  simp only [addrInvOf, BitVec.getLsbD_extractLsb', BitVec.getLsbD_append]
  interval_cases i <;> simp

@[simp] theorem cmdOf_pack (a ai c ci : Byte) : cmdOf (pack a ai c ci) = c := by
  rw [pack_eq_append]
  apply BitVec.eq_of_getLsbD_eq
  intro i hi
  simp only [cmdOf, BitVec.getLsbD_extractLsb', BitVec.getLsbD_append]
  interval_cases i <;> simp

@[simp] theorem cmdInvOf_pack (a ai c ci : Byte) : cmdInvOf (pack a ai c ci) = ci := by
  rw [pack_eq_append]
  apply BitVec.eq_of_getLsbD_eq
  intro i hi
  simp only [cmdInvOf, BitVec.getLsbD_extractLsb', BitVec.getLsbD_append]
  interval_cases i <;> simp

/-- A Telegram packed from two Bytes and their inverses is valid (30_encoding.md R75). -/
@[simp] theorem validTelegram_pack (a c : Byte) :
    validTelegram (pack a (inv8 a) c (inv8 c)) = true := by
  simp [validTelegram]

/-- The low eight bits of an integer held in eight or more bits are its Byte (00_scope.md R5). -/
theorem setWidth_ofInt (w : Nat) (n : Int) (h : 8 ≤ w) :
    (BitVec.ofInt w n).setWidth 8 = mask8 n := by
  apply BitVec.eq_of_toNat_eq
  have hd : ((2 ^ 8 : Nat) : Int) ∣ ((2 ^ w : Nat) : Int) := by exact_mod_cast pow_dvd_pow 2 h
  have hw : ((2 ^ w : Nat) : Int) ≠ 0 := by positivity
  have hp := Int.emod_nonneg n hw
  simp only [mask8, BitVec.toNat_setWidth, BitVec.toNat_ofInt]
  rw [← Int.emod_emod_of_dvd n hd]
  omega

/-- The width of an ENC operand does not reach its low eight bits (40_telegram_codec.md R101). -/
theorem mask8_narrowOperand (p : Params) (n : Int) (h : p.legal = true) :
    mask8 (narrowOperand p n) = mask8 n := by
  unfold narrowOperand
  cases hw : p.opw with
  | none => rfl
  | some w =>
    have h8 : 8 ≤ w := by
      simp only [Params.legal, hw, Option.all_some, Bool.and_eq_true, decide_eq_true_eq] at h
      exact h.1
    simp only [← setWidth_ofInt w _ h8, BitVec.ofInt_toInt]

end Sys2Proof.Machine
end

