-- ==== Sys2Proof/Laws/Parse.lean ====
section
/-! SUPPORT. parse and segmentFrames, said once (41_pulse_parse_segment.md). -/

namespace Sys2Proof.Machine

theorem splitCommas_ne_nil (l : List Byte) : splitCommas l ≠ [] := by
  cases l with
  | nil => simp [splitCommas]
  | cons x l =>
    unfold splitCommas
    split
    · simp
    · split <;> simp

/-- A comma cuts (30_encoding.md R80). -/
theorem splitCommas_append_comma (a b : List Byte) :
    splitCommas (a ++ comma :: b) = splitCommas a ++ splitCommas b := by
  induction a with
  | nil => simp [splitCommas]
  | cons x a ih =>
    simp only [List.cons_append, splitCommas, ih]
    split
    · simp
    · cases h : splitCommas a with
      | nil => exact absurd h (splitCommas_ne_nil a)
      | cons tok toks => simp

/-- The characters of the tokens are those of the string that are no comma (30_encoding.md R80). -/
theorem mem_splitCommas (l : List Byte) (ch : Byte) :
    (∃ tok ∈ splitCommas l, ch ∈ tok) ↔ ch ∈ l ∧ ch ≠ comma := by
  induction l with
  | nil => simp [splitCommas]
  | cons x l ih =>
    unfold splitCommas
    split
    · rename_i hx
      subst hx
      simp only [List.mem_cons, exists_eq_or_imp, List.not_mem_nil, false_or, ih]
      tauto
    · rename_i hx
      cases h : splitCommas l with
      | nil => exact absurd h (splitCommas_ne_nil l)
      | cons tok toks =>
        rw [h] at ih
        simp only [List.mem_cons, exists_eq_or_imp] at ih ⊢
        constructor
        · rintro ((rfl | hm) | hm)
          · exact ⟨.inl rfl, hx⟩
          · exact ⟨.inr (ih.1 (.inl hm)).1, (ih.1 (.inl hm)).2⟩
          · exact ⟨.inr (ih.1 (.inr hm)).1, (ih.1 (.inr hm)).2⟩
        · rintro ⟨rfl | hm, hc⟩
          · exact .inl (.inl rfl)
          · rcases ih.2 ⟨hm, hc⟩ with hm | hm
            · exact .inl (.inr hm)
            · exact .inr hm

/-- Tokens of digits give one pulse for each that is not empty (41_pulse_parse_segment.md R132, R134). -/
theorem parseTokens_ok (p : Params) (toks : List (List Byte))
    (h : ∀ tok ∈ toks, ∀ ch ∈ tok, isDigit ch = true) :
    parseTokens p toks =
      .ok ((toks.filter (fun t => !t.isEmpty)).map (fun t => saturate p (decval t))) := by
  induction toks with
  | nil => rfl
  | cons tok toks ih =>
    have ih := ih (fun t ht => h t (List.mem_cons_of_mem _ ht))
    cases tok with
    | nil => simpa [parseTokens] using ih
    | cons ch rest =>
      have hd : (ch :: rest).all isDigit = true := by simpa using h (ch :: rest) (by simp)
      simp only [parseTokens, hd, if_true, ih]
      rfl

/-- A token with another character fails the whole string (41_pulse_parse_segment.md R133). -/
theorem parseTokens_error (p : Params) (toks : List (List Byte)) {tok : List Byte} {ch : Byte}
    (ht : tok ∈ toks) (hc : ch ∈ tok) (h : isDigit ch = false) :
    parseTokens p toks = .error .malformedPulseToken := by
  induction toks with
  | nil => cases ht
  | cons t toks ih =>
    cases t with
    | nil =>
      rcases List.mem_cons.mp ht with rfl | ht
      · cases hc
      · exact ih ht
    | cons x rest =>
      by_cases hd : (x :: rest).all isDigit = true
      · rcases List.mem_cons.mp ht with rfl | ht
        · have := List.all_eq_true.mp hd ch hc
          rw [h] at this
          cases this
        · simp only [parseTokens, hd, if_true, ih ht]
      · simp only [parseTokens, hd]
        rfl

/-- Pulses at or below 5000 go to the current frame (41_pulse_parse_segment.md R141). -/
theorem segmentFrom_append_low (cur low rest : List Nat) (h : ∀ x ∈ low, x ≤ 5000) :
    segmentFrom cur (low ++ rest) = segmentFrom (cur ++ low) rest := by
  induction low generalizing cur with
  | nil => simp
  | cons x low ih =>
    have hx : ¬ (gapMin < x ∧ (!(low ++ rest).isEmpty) = true) := by
      have := h x (by simp)
      unfold gapMin
      omega
    rw [List.cons_append, segmentFrom, if_neg hx, ih _ (fun y hy => h y (by simp [hy]))]
    simp

/-- The walk loses no pulse (41_pulse_parse_segment.md R144). -/
theorem segmentFrom_flatten (cur l : List Nat) : (segmentFrom cur l).flatten = cur ++ l := by
  induction l generalizing cur with
  | nil => unfold segmentFrom; split <;> simp_all
  | cons x l ih => unfold segmentFrom; split <;> simp [ih]

end Sys2Proof.Machine
end

