-- ==== Sys2Proof/Laws/PerInstr.lean ====
section
/-! SUPPORT. Per operation: its OPSEL is matched by exactly one row of the opcode map
(30_encoding.md section 1: "The three patterns do not overlap"). -/

namespace Sys2Proof.Laws.OneOpcodeRow

/-- Exactly one row of the opcode map matches the OPSEL that the operation is encoded with. -/
def Statement (i : Instr) : Prop :=
  ∃ row ∈ opcodeTable, (encode i).opsel &&& row.mask = row.pattern ∧
    ∀ other ∈ opcodeTable, (encode i).opsel &&& other.mask = other.pattern → other = row

theorem enc (a c : Int) : Statement (.enc a c) :=
  ⟨⟨.formatE, 0x01, 0xFF⟩, by decide, by simp [encode], by simp [encode, opcodeTable]⟩

theorem dec (txt : List Byte) : Statement (.dec txt) :=
  ⟨⟨.formatD, 0x02, 0xFF⟩, by decide, by simp [encode], by simp [encode, opcodeTable]⟩

theorem ptd (threshold : Option Nat) (raw : List Byte) : Statement (.ptd threshold raw) := by
  cases threshold <;>
    exact ⟨⟨.formatP, 0x03, 0xFB⟩, by decide, by simp [encode], by simp [encode, opcodeTable]⟩

end Sys2Proof.Laws.OneOpcodeRow
end

