-- ==== Sys2Proof/Laws/Pulse.lean ====
section
/-! SUPPORT. What PTD can do, said once (43_pulse_train_decode.md). -/

namespace Sys2Proof.Machine

theorem parse_error {p : Params} {raw : List Byte} {e : ErrKind} (h : parse p raw = .error e) :
    e = .malformedPulseToken := by
  unfold parse at h
  generalize splitCommas _ = toks at h
  induction toks with
  | nil => cases h
  | cons tok toks ih =>
    cases tok with
    | nil => exact ih h
    | cons ch rest =>
      simp only [parseTokens] at h
      split at h
      · split at h
        · cases h
        · rename_i e' he
          cases h
          exact ih he
      · cases h; rfl

/-- The two ways decodePulseTrain ends (43_pulse_train_decode.md R171 to R173, R179). -/
theorem decodePulseTrain_cases (p : Params) (threshold : Option Nat) (raw : List Byte) :
    (∃ e, errUnit e = .pd ∧ decodePulseTrain p threshold raw = .error e) ∨
    (∃ train b others, parse p raw = .ok train ∧
      decodedBytes p.oddTail (effectiveThreshold p threshold) train = b :: others ∧
      decodePulseTrain p threshold raw = .ok (b, b :: others)) := by
  unfold decodePulseTrain
  cases hp : parse p raw with
  | error e => exact .inl ⟨e, by rw [parse_error hp]; rfl, rfl⟩
  | ok train =>
    cases hd : decodedBytes p.oddTail (effectiveThreshold p threshold) train with
    | nil => exact .inl ⟨.noDecodableFrames, rfl, by simp [hd]⟩
    | cons b others => exact .inr ⟨train, b, others, rfl, hd, by simp [hd]⟩

/-- What PTD answers: a failure of unit PD, the write of a result, or the refusal of a frame count that
NFR_W bits cannot hold (43_pulse_train_decode.md R170, 10_state.md R27). -/
theorem execPtd_cases (threshold : Option Nat) (raw : List Byte) (s : State) :
    (∃ e, errUnit e = .pd ∧ decodePulseTrain s.params threshold raw = .error e ∧
      execPtd threshold raw s = .next (writePd (pdFailed e) s)) ∨
    (∃ b others, decodePulseTrain s.params threshold raw = .ok (b, b :: others) ∧
      countFits s.params (others.length + 1) = true ∧
      execPtd threshold raw s = .next (writePd (pdResult b (b :: others)) s)) ∨
    (∃ b others, decodePulseTrain s.params threshold raw = .ok (b, b :: others) ∧
      countFits s.params (others.length + 1) = false ∧
      execPtd threshold raw s = .refused .frameCountTooWide) := by
  unfold execPtd
  rcases decodePulseTrain_cases s.params threshold raw with ⟨e, hu, he⟩ | ⟨train, b, others, _, _, ho⟩
  · exact .inl ⟨e, hu, he, by rw [he]; simp only [raiseError_pd e s hu]⟩
  · cases hc : countFits s.params (others.length + 1) with
    | true => exact .inr (.inl ⟨b, others, ho, hc, by simp [ho, hc]⟩)
    | false => exact .inr (.inr ⟨b, others, ho, hc, by simp [ho, hc]⟩)

end Sys2Proof.Machine
end

