-- ==== Sys2Proof/Laws/Telegram.lean ====
section
/-! SUPPORT. What ENC and DEC can do, said once (40_telegram_codec.md). -/

namespace Sys2Proof.Machine

/-- ENC is one write of unit TC, with the Bytes of its operands (40_telegram_codec.md R100, R101). -/
theorem execEnc_eq (a c : Int) (s : State) (h : s.params.legal = true) :
    execEnc a c s = .next (writeTc (tcResult (encodeTelegram a c)) s) := by
  simp only [execEnc, encodeTelegram, mask8_narrowOperand _ _ h]

theorem hexval_lt {ch : Byte} {v : Nat} (h : hexval ch = some v) : v < 16 := by
  unfold hexval at h
  split at h
  · cases h; rename_i hc; have := hc.2; bv_omega
  split at h
  · cases h; rename_i hc; have := hc.2; bv_omega
  split at h
  · cases h; rename_i hc; have := hc.2; bv_omega
  · cases h

/-- A run of hexadecimal digits has the value of each digit. -/
theorem hexDigits_eq_map (ds : List Byte) (h : ∀ ch ∈ ds, isHex ch = true) :
    hexDigits ds = some (ds.map (fun ch => (hexval ch).getD 0)) := by
  induction ds with
  | nil => rfl
  | cons ch rest ih =>
    obtain ⟨v, hv⟩ := Option.isSome_iff_exists.mp (h ch (by simp))
    simp [hexDigits, hv, ih (fun x hx => h x (by simp [hx]))]

/-- One character that is no digit spoils the run. -/
theorem hexDigits_eq_none {ds : List Byte} {ch : Byte} (hm : ch ∈ ds) (h : isHex ch = false) :
    hexDigits ds = none := by
  induction ds with
  | nil => cases hm
  | cons x rest ih =>
    rcases List.mem_cons.mp hm with rfl | hm
    · have : hexval ch = none := by simpa [isHex] using h
      simp [hexDigits, this]
    · simp only [hexDigits, ih hm]
      split <;> simp_all

theorem digitString_lower (ds : List Byte) : digitString (0x30 :: 0x78 :: ds) = ds := by
  simp [digitString, hasHexMark, memRead]

theorem digitString_upper (ds : List Byte) : digitString (0x30 :: 0x58 :: ds) = ds := by
  simp [digitString, hasHexMark, memRead]

/-- A text is a mark and its digit string, or it is its digit string (40_telegram_codec.md R111). -/
theorem digitString_cases (txt : List Byte) :
    (txt = 0x30 :: 0x78 :: digitString txt ∧ hasHexMark txt = true) ∨
    (txt = 0x30 :: 0x58 :: digitString txt ∧ hasHexMark txt = true) ∨
    (txt = digitString txt ∧ hasHexMark txt = false) := by
  by_cases h : hasHexMark txt = true
  · have h' := h
    simp only [hasHexMark, memRead, Bool.and_eq_true, Bool.or_eq_true, beq_iff_eq] at h
    match txt, h with
    | x :: y :: rest, ⟨h0, h1⟩ =>
      simp only [List.getElem?_cons_zero, Option.some.injEq, List.getElem?_cons_succ] at h0 h1
      subst h0
      rcases h1 with rfl | rfl
      · exact .inl ⟨by rw [digitString_lower], h'⟩
      · exact .inr (.inl ⟨by rw [digitString_upper], h'⟩)
    | [x], ⟨_, h1⟩ => simp at h1
    | [], ⟨h0, _⟩ => simp at h0
  · have h' : hasHexMark txt = false := by simpa using h
    exact .inr (.inr ⟨by simp [digitString, h'], h'⟩)

/-- A digit string without a mark in front is not cut: 'x' is no hexadecimal digit (30_encoding.md R78). -/
theorem hasHexMark_of_isHex (ds : List Byte) (h : ∀ ch ∈ ds, isHex ch = true) :
    hasHexMark ds = false := by
  match ds, h with
  | [], _ => rfl
  | [x], _ => simp [hasHexMark, memRead]
  | x :: y :: rest, h =>
    have hy := h y (by simp)
    simp only [hasHexMark, memRead, List.getElem?_cons_zero, List.getElem?_cons_succ,
      Bool.and_eq_false_iff, Bool.or_eq_false_iff, beq_eq_false_iff_ne, ne_eq, Option.some.injEq]
    refine .inr ⟨?_, ?_⟩ <;> rintro rfl <;> exact absurd hy (by decide)

theorem digitString_of_isHex (ds : List Byte) (h : ∀ ch ∈ ds, isHex ch = true) :
    digitString ds = ds := by
  simp [digitString, hasHexMark_of_isHex ds h]

/-- The structure check passes on 7 or 8 hexadecimal digits, with the value of each digit
(40_telegram_codec.md R112, R114). -/
theorem telegramFields_of_isHex (txt : List Byte) (h : ∀ ch ∈ digitString txt, isHex ch = true) :
    telegramFields txt =
      match (digitString txt).map (fun ch => (hexval ch).getD 0) with
      | [a1, a0, b1, b0, c1, c0, d1, d0] =>
        some ⟨groupByte a1 a0, groupByte b1 b0, groupByte c1 c0, groupByte d1 d0⟩
      | [a1, a0, b1, b0, c1, c0, d0] =>
        some ⟨groupByte a1 a0, groupByte b1 b0, groupByte c1 c0, groupByte 0 d0⟩
      | _ => none := by
  rw [telegramFields, hexDigits_eq_map _ h]
  generalize (digitString txt).map _ = vs
  split <;> simp_all

/-- The structure check fails on a character that is no hexadecimal digit (40_telegram_codec.md R112). -/
theorem telegramFields_eq_none {txt : List Byte} {ch : Byte} (hm : ch ∈ digitString txt)
    (h : isHex ch = false) : telegramFields txt = none := by
  rw [telegramFields, hexDigits_eq_none hm h]

/-- What DEC answers: a failure of unit TC, or the write of a Telegram whose two checks passed
(40_telegram_codec.md R110, R115, R116). -/
theorem execDec_cases (txt : List Byte) (s : State) :
    (∃ e, errUnit e = .tc ∧ decodeTelegram txt = .error e ∧
      execDec txt s = .next (writeTc (tcFailed e) s)) ∨
    (∃ b, decodeTelegram txt = .ok b ∧ b.addrInv = inv8 b.addr ∧ b.cmdInv = inv8 b.cmd ∧
      execDec txt s = .next (writeTc (tcResult b) s)) := by
  unfold execDec decodeTelegram
  cases telegramFields txt with
  | none => exact .inl ⟨_, rfl, rfl, rfl⟩
  | some b =>
    by_cases ha : b.addrInv = inv8 b.addr
    · by_cases hc : b.cmdInv = inv8 b.cmd
      · exact .inr ⟨b, by simp [ha, hc], ha, hc, by simp [ha, hc]⟩
      · exact .inl ⟨.commandInverseMismatch, rfl, by simp [ha, hc], by simp [ha, hc]; rfl⟩
    · exact .inl ⟨.addressInverseMismatch, rfl, by simp [ha], by simp [ha]; rfl⟩

end Sys2Proof.Machine
end

