-- ==== Sys2Proof/Laws/Step.lean ====
section
/-! SUPPORT. What an operation and a step can do, said once, and that withFetchWord places its request
where the next step takes it. -/

namespace Sys2Proof.Machine

/-- The next states of an operation: one write of its unit with what a failure or a success leaves there
(10_state.md R33, 60_exceptions.md R196). -/
theorem exec_next_cases {i : Instr} {s t : State} (h : exec i s = .next t) :
    (∃ b, b.addrInv = inv8 b.addr ∧ b.cmdInv = inv8 b.cmd ∧ ((∃ a c, i = .enc a c) ∨ ∃ x, i = .dec x) ∧
      t = writeTc (tcResult b) s) ∨
    (∃ e x, errUnit e = .tc ∧ i = .dec x ∧ t = writeTc (tcFailed e) s) ∨
    (∃ threshold raw b others, i = .ptd threshold raw ∧
      countFits s.params (others.length + 1) = true ∧ t = writePd (pdResult b (b :: others)) s) ∨
    (∃ threshold raw e, errUnit e = .pd ∧ i = .ptd threshold raw ∧ t = writePd (pdFailed e) s) := by
  cases i with
  | enc a c =>
    cases h
    exact .inl ⟨_, rfl, rfl, Or.inl ⟨a, c, rfl⟩, rfl⟩
  | dec txt =>
    rcases execDec_cases txt s with ⟨e, hu, _, he⟩ | ⟨b, _, ha, hc, he⟩ <;>
      rw [show exec (.dec txt) s = execDec txt s from rfl, he] at h <;> cases h
    · exact .inr (.inl ⟨e, txt, hu, rfl, rfl⟩)
    · exact .inl ⟨b, ha, hc, Or.inr ⟨txt, rfl⟩, rfl⟩
  | ptd threshold raw =>
    rcases execPtd_cases threshold raw s with
        ⟨e, hu, _, he⟩ | ⟨b, others, _, hc, he⟩ | ⟨b, others, _, hc, he⟩ <;>
      rw [show exec (.ptd threshold raw) s = execPtd threshold raw s from rfl, he] at h <;> cases h
    · exact .inr (.inr (.inr ⟨threshold, raw, e, hu, rfl, rfl⟩))
    · exact .inr (.inr (.inl ⟨threshold, raw, b, others, rfl, hc, rfl⟩))

/-- What an operation does is fixed by the operation and the parameters alone: one write of its unit, or a
refusal (00_scope.md R2, 10_state.md R33). -/
theorem exec_one_write (i : Instr) (p : Params) :
    (∃ r, isTcOp i = true ∧ ∀ s, s.params = p → exec i s = .next (writeTc r s)) ∨
    (∃ r, isTcOp i = false ∧ ∀ s, s.params = p → exec i s = .next (writePd r s)) ∨
    (∃ why, isTcOp i = false ∧ ∀ s, s.params = p → exec i s = .refused why) := by
  cases i with
  | enc a c =>
    exact .inl ⟨tcResult (encodeTelegram (narrowOperand p a) (narrowOperand p c)), rfl,
      by rintro s rfl; rfl⟩
  | dec txt =>
    cases h : decodeTelegram txt with
    | error e =>
      refine .inl ⟨tcFailed e, rfl, fun s _ => ?_⟩
      rcases execDec_cases txt s with ⟨e', _, he, hx⟩ | ⟨b, hb, _⟩
      · rw [h] at he; cases he; exact hx
      · rw [h] at hb; cases hb
    | ok b =>
      refine .inl ⟨tcResult b, rfl, fun s _ => ?_⟩
      rcases execDec_cases txt s with ⟨e', _, he, _⟩ | ⟨b', hb, _, _, hx⟩
      · rw [h] at he; cases he
      · rw [h] at hb; cases hb; exact hx
  | ptd threshold raw =>
    rcases decodePulseTrain_cases p threshold raw with ⟨e, hu, he⟩ | ⟨_, b, others, _, _, ho⟩
    · refine .inr (.inl ⟨pdFailed e, rfl, ?_⟩)
      rintro s rfl
      show execPtd threshold raw s = _
      simp only [execPtd, he, raiseError_pd e s hu]
    · cases hc : countFits p (b :: others).length with
      | true =>
        refine .inr (.inl ⟨pdResult b (b :: others), rfl, ?_⟩)
        rintro s rfl
        show execPtd threshold raw s = _
        simp only [execPtd, ho, hc, if_true]
      | false =>
        refine .inr (.inr ⟨.frameCountTooWide, rfl, ?_⟩)
        rintro s rfl
        show execPtd threshold raw s = _
        simp only [execPtd, ho, hc]
        rfl

theorem nextOf_eq_some (o : Host.Outcome State Fault Refusal) (t : State) :
    nextOf o = some t ↔ o = .next t := by
  cases o <;> simp [nextOf]

/-- What a step can do when it answers a next state (70_reset_and_hazards.md R220, R229). -/
theorem step_next_cases {s t : State} (h : step s = .next t) :
    (s.port = [] ∧ t = s) ∨
    (∃ rest, s.port = .reset :: rest ∧ t = applyReset (popEvent s)) ∨
    (∃ r rest i, s.port = .request r :: rest ∧ decode r = .ok i ∧ i.violation s.params = none ∧
      exec i (popEvent s) = .next t) := by
  unfold step at h
  split at h
  · cases h; exact .inl ⟨by assumption, rfl⟩
  · cases h; exact .inr (.inl ⟨_, by assumption, rfl⟩)
  · rename_i r rest hp
    split at h
    · rename_i i hi
      unfold acceptRequest at hi
      split at hi
      · cases hi
      · rename_i j hj
        split at hi
        · cases hi
        · cases hi
          exact .inr (.inr ⟨r, rest, i, hp, hj, by assumption, h⟩)
    · cases h

/-- The request that withFetchWord places is the one the next step takes (assumption 2). -/
theorem step_withFetchWord (s : State) (nbits w : Nat) :
    step (s.withFetchWord nbits w) =
      match acceptRequest s.params (tableRequest nbits w) with
      | .ok i => exec i s
      | .error why => .refused why := rfl

end Sys2Proof.Machine
end

