-- ==== Sys2Proof/Tests/Slice0.lean ====
section
/-! SUPPORT. The tests: ill-formed terms, request words written out from 30_encoding.md section 1 and the
programs of 95_test_vectors.md section 3, vectors of 95_test_vectors.md, and a witness for the hypotheses of
every statement that has some. The number of a vector (V1, V2, ...) names the source of each expected
value. -/

namespace Sys2Proof.Tests

open Sys2Proof Sys2Proof.Machine

/-! ### Well-formedness: one ill-formed term for each check -/

theorem test_wf_textTooLong :
    (Instr.dec [0x30, 0x31]).violation { unboundedParams with txtMax := some 1 } =
      some .textTooLong := by decide

theorem test_wf_rawTooLong :
    (Instr.ptd none [0x31]).violation { unboundedParams with rawMax := some 0 } =
      some .rawTooLong := by decide

/-- A text or raw string of exactly the greatest length is presented, and a width rules nothing out. -/
theorem test_wf_boundary :
    (Instr.dec [0x30]).wf { unboundedParams with txtMax := some 1 } = true ∧
    (Instr.ptd none [0x31]).wf { unboundedParams with rawMax := some 1 } = true ∧
    (Instr.enc 256 (-129)).wf { unboundedParams with opw := some 8 } = true ∧
    (Instr.ptd (some 8192) []).wf { unboundedParams with durW := some 13 } = true ∧
    (Instr.dec []).wf (defaultParams none) = true := by decide

/-! ### Decoding: words written out from R71 to R73 -/

/-- P1 step 1: OPSEL=01 A=00000001 C=00000045. -/
theorem test_decode_enc :
    decode ⟨0b00000001, [.int 0x00000001, .int 0x00000045]⟩ = .ok (.enc 1 0x45) := by decide

/-- P2 step 3: OPSEL=02 TXT_LEN=6 TXT=30 31 46 45 34 35. -/
theorem test_decode_dec :
    decode ⟨0b00000010, [.nat 6, .char 0x30, .char 0x31, .char 0x46, .char 0x45, .char 0x34,
      .char 0x35]⟩ = .ok (.dec [0x30, 0x31, 0x46, 0x45, 0x34, 0x35]) := by decide

/-- P4 step 2: OPSEL=03 RAW_LEN=4 RAW=31 32 2C 78. -/
theorem test_decode_ptd :
    decode ⟨0b00000011, [.nat 4, .char 0x31, .char 0x32, .char 0x2C, .char 0x78]⟩ =
      .ok (.ptd none [0x31, 0x32, 0x2C, 0x78]) := by decide

/-- The threshold word of P3 step 3 (OPSEL=07 T=03E8) in front of a raw string of one character. -/
theorem test_decode_ptd_threshold :
    decode ⟨0b00000111, [.nat 0x03E8, .nat 1, .char 0x2C]⟩ = .ok (.ptd (some 1000) [0x2C]) := by
  decide

/-- P5, and the neighbours of the four accepted values. -/
theorem test_decode_reserved :
    [0x00, 0x04, 0x05, 0x06, 0x08, 0x0B, 0x83, 0xFF].all (fun v =>
      decode ⟨v, []⟩ == .error (.reservedOpsel v)) = true := by decide

/-- Operand words that are not those of the format (assumption 3). -/
theorem test_decode_shape :
    decode ⟨0x01, [.int 1]⟩ = .error .operandShape ∧
    decode ⟨0x01, [.int 1, .int 2, .int 3]⟩ = .error .operandShape ∧
    decode ⟨0x02, [.char 0x30]⟩ = .error .operandShape ∧
    decode ⟨0x02, [.nat 2, .char 0x30]⟩ = .error .lengthMismatch ∧
    decode ⟨0x03, [.nat 0, .nat 0]⟩ = .error .operandShape ∧
    decode ⟨0x07, [.nat 0]⟩ = .error .operandShape := by decide

theorem test_decodeTableWord :
    decodeTableWord 8 0x01 = some (.enc 0 0) ∧ decodeTableWord 8 0x02 = some (.dec []) ∧
    decodeTableWord 8 0x03 = some (.ptd none []) ∧
    decodeTableWord 8 0x07 = some (.ptd (some 0) []) ∧ decodeTableWord 8 0x05 = none := by decide

/-! ### States and operands used below -/

/-- The state after P1 step 1. -/
def afterEnc : State :=
  { State.reset with tc := { telegram := 0x01FE45BA, done := 1, err := 0 } }

/-- The state of a realisation with the narrowest widths the spec allows (D4, D7). -/
def narrow : State := { State.reset with params := { unboundedParams with opw := some 8, durW := some 13 } }

/-- "01FE45BA" (P1 step 2). -/
def text8 : List Byte := [0x30, 0x31, 0x46, 0x45, 0x34, 0x35, 0x42, 0x41]

/-- "01FEF5A" (P2 step 4). -/
def text7 : List Byte := [0x30, 0x31, 0x46, 0x45, 0x46, 0x35, 0x41]

/-- "01FF45BA", the digits of V42. -/
def textBadAddress : List Byte := [0x30, 0x31, 0x46, 0x46, 0x34, 0x35, 0x42, 0x41]

/-- "01FE45BB", the digits of V44. -/
def textBadCommand : List Byte := [0x30, 0x31, 0x46, 0x45, 0x34, 0x35, 0x42, 0x42]

/-- The pulses of V4 without the placeholder. -/
def frameV4 : List Nat :=
  [2000, 1000, 400, 1000, 400, 400, 1000, 1000, 400, 1000, 400, 400, 1000, 400, 1000, 400, 1000, 400,
    2000, 5600]

/-- The raw string of V4, with its placeholder: "0,2000,1000,...,5600". -/
def rawV4 : List Byte := rawOfTrain (0 :: frameV4)

/-! ### Vectors -/

/-- V1. -/
theorem test_enc_example : nextOf (exec (.enc 0x01 0x45) State.reset) = some afterEnc := by decide

/-- V18: negative operands. -/
theorem test_enc_negative :
    (nextOf (exec (.enc (-1) (-256)) State.reset)).map (·.tc.telegram) = some 0xFF0000FF := by decide

/-- V25: the 7-digit form writes the canonical Telegram. -/
theorem test_dec_seven_digits :
    (nextOf (exec (.dec text7) State.reset)).map (·.tc) =
      some { telegram := 0x01FEF50A, done := 1, err := 0 } := by decide

/-- V46: both inverse bytes wrong reports the address; the result of the ENC before is gone (P2). -/
theorem test_dec_both_wrong :
    (nextOf (exec (.dec [0x30, 0x78, 0x30, 0x31, 0x46, 0x46, 0x34, 0x35, 0x42, 0x42]) afterEnc)).map
      (·.tc) = some { telegram := 0, done := 1, err := 2 } := by decide

/-- V4. -/
theorem test_ptd_example :
    (nextOf (exec (.ptd none rawV4) State.reset)).map (·.pd) =
      some { byte := 0x0D, chan := 1, cmdk := 1, nframes := 1, matchFlag := 1, done := 1,
             err := 0 } := by decide

/-- V96: frames that disagree, and the first byte canonical. -/
theorem test_ptd_disagreement :
    (nextOf (exec (.ptd none (rawOfTrain (frameOfByte 0x2D ++ frameOfByte 0x0D ++ frameOfByte 0x0D)))
      State.reset)).map (·.pd) =
      some { byte := 0x2D, chan := 1, cmdk := 4, nframes := 3, matchFlag := 0, done := 1,
             err := 0 } := by decide

/-- V50, V53: " 0, 2000 ,1000,,400 " and "1 000". -/
theorem test_parse :
    parse unboundedParams [0x20, 0x30, 0x2C, 0x20, 0x32, 0x30, 0x30, 0x30, 0x20, 0x2C, 0x31, 0x30, 0x30,
      0x30, 0x2C, 0x2C, 0x34, 0x30, 0x30, 0x20] = .ok [0, 2000, 1000, 400] ∧
    parse unboundedParams [0x31, 0x20, 0x30, 0x30, 0x30] = .ok [1000] := by decide

/-- V58: "-5" fails. -/
theorem test_parse_sign :
    parse unboundedParams [0x2D, 0x35] = .error .malformedPulseToken := by decide

/-- V62, V63, V64. -/
theorem test_segmentFrames :
    segmentFrames [1, 2, 6000, 3, 4] = [[1, 2, 6000], [3, 4]] ∧
    segmentFrames [1, 5000, 2] = [[1, 5000, 2]] ∧ segmentFrames [1, 5001, 2] = [[1, 5001], [2]] ∧
    segmentFrames [6000, 6000] = [[6000], [6000]] := by decide

/-- V79: an odd count of pulses, under both values of ODD_TAIL. -/
theorem test_decodeFrame_odd_tail :
    decodeFrame .drop (frameOfByte 0xFF ++ [123]) 700 = some 0xFF ∧
    decodeFrame .fail (frameOfByte 0xFF ++ [123]) 700 = none := by decide

/-- V81: two leading zeros. -/
theorem test_decodeFrame_two_zeros :
    decodeFrame .drop (0 :: 0 :: frameOfByte 0xFF) 700 = some 0x00 := by decide

/-- V70, V71: the first data pair is bit 0 and the eighth bit 7. -/
theorem test_frameOfByte :
    frameOfByte 0x01 = [2000, 1000, 400, 1000, 400, 400, 400, 400, 400, 400, 400, 400, 400, 400, 400,
      400, 400, 400, 2000, 5600] ∧
    decodeFrame .drop [2000, 1000, 400, 400, 400, 400, 400, 400, 400, 400, 400, 400, 400, 400, 400, 400,
      400, 1000, 2000, 5600] 700 = some 0x80 := by decide

/-- V74, V75, V76, V78: 9 pairs, a ninth bit, a stop after 8 bits, a stop after 3. -/
theorem test_decodeFrame_counts :
    let o : List Nat := [400, 1000]
    decodeFrame .drop ([2000, 1000] ++ (List.replicate 8 o).flatten) 700 = none ∧
    decodeFrame .drop ([2000, 1000] ++ (List.replicate 9 o).flatten ++ [2000, 5600]) 700 = none ∧
    decodeFrame .drop ([2000, 1000] ++ (List.replicate 8 o).flatten ++ [400, 3500, 2000, 5600]) 700 =
      some 0xFF ∧
    decodeFrame .drop ([2000, 1000] ++ (List.replicate 3 o).flatten ++ [400, 3001] ++
      (List.replicate 4 o).flatten ++ [2000, 5600]) 700 = none := by decide

/-- The step takes the request that withFetchWord places as the first after reset. -/
theorem test_step_first_request :
    nextOf (step (State.reset.withFetchWord 8 0x01)) =
      some { State.reset with tc := { telegram := 0x00FF00FF, done := 1, err := 0 } } ∧
    (nextOf (step (State.reset.withFetchWord 8 0x02))).map (·.tc.err) = some 1 ∧
    (nextOf (step (State.reset.withFetchWord 8 0x03))).map (·.pd.err) = some 5 ∧
    nextOf (step (State.reset.withFetchWord 8 0x05)) = none := by decide

/-! ### Witnesses for the hypotheses of the statements -/

theorem enc_next : exec (.enc 1 0x45) State.reset = .next afterEnc :=
  (nextOf_eq_some _ _).1 (by decide)

theorem test_witness_MaskKeepsLowEightBits :
    8 ≤ 8 ∧ mask8 (0x80#8).toInt = (0x80#8).setWidth 8 ∧ mask8 ((0x80#8).toNat : Int) = 0x80 := by
  decide

theorem test_witness_DecimalTokenValue :
    9 < 10 ∧ decval ([0x31] ++ [BitVec.ofNat 8 (0x30 + 9)]) = 19 := by decide

theorem test_witness_ResetEventAndWaiting :
    ({ afterEnc with port := [.reset] } : State).port = .reset :: [] ∧
    (nextOf (step { afterEnc with port := [.reset] })).map (·.tc) = some .zero ∧
    afterEnc.port = [] := by decide

theorem test_witness_EveryOperationSettles : State.reset.params.nfrW = none := rfl

theorem test_witness_ResultDependsOnOperandsOnly :
    ∃ t, State.reset.params = afterEnc.params ∧ State.reset ≠ afterEnc ∧
      exec (.enc 1 0x45) State.reset = .next t :=
  ⟨afterEnc, rfl, by decide, enc_next⟩

theorem test_witness_OperationFrame :
    (∃ t, exec (.enc 1 0x45) State.reset = .next t ∧ isTcOp (.enc 1 0x45) = true) ∧
    (∃ t, exec (.ptd none []) State.reset = .next t ∧ isTcOp (.ptd none []) = false) :=
  ⟨⟨_, enc_next, rfl⟩, ⟨_, rfl, rfl⟩⟩

theorem test_witness_DoneBitsOnlyClearedByReset :
    ∃ s t, step s = .next t ∧ s.port.head? ≠ some .reset ∧ s.tc.done = 1 ∧ s.port ≠ [] :=
  ⟨{ afterEnc with port := [.request (encode (.ptd none []))] }, _, rfl, by decide, rfl, by decide⟩

theorem test_witness_RepeatingAnOperationChangesNothing :
    ∃ t, exec (.enc 1 0x45) State.reset = .next t := ⟨_, enc_next⟩

theorem test_witness_LaterOperationOverwritesUnit :
    ∃ t, isTcOp (.enc 1 0x45) = isTcOp (.dec text7) ∧ exec (.enc 1 0x45) State.reset = .next t :=
  ⟨_, rfl, enc_next⟩

theorem test_witness_UnitsCommute : isTcOp (.enc 1 0x45) ≠ isTcOp (.ptd none rawV4) := by
  simp [isTcOp]

theorem test_witness_InvariantKeptByStep :
    ∃ s t, s.Inv ∧ step s = .next t ∧ s ≠ t :=
  ⟨{ State.reset with port := [.request (encode (.enc 1 0x45))] }, afterEnc, by decide,
    (nextOf_eq_some _ _).1 (by decide), by decide⟩

theorem test_witness_StepConsumesOneEvent :
    ∃ t, step { afterEnc with port := [.reset] } = .next t := ⟨_, rfl⟩

theorem test_witness_StepRunsDecodedOperation :
    ∃ (s : State) (r : Request) (rest : List HostEvent) (i : Instr),
      s.port = .request r :: rest ∧ decode r = .ok i ∧ i.wf s.params = true :=
  ⟨{ narrow with port := [.request ⟨0x07, [.nat 8192, .nat 0]⟩] }, _, _, .ptd (some 8192) [], rfl,
    by decide, by decide⟩

theorem test_witness_ReservedOpselRefused :
    (∃ (s : State) (r : Request) (rest : List HostEvent), s.port = .request r :: rest ∧
      r.opsel ≠ 0x01 ∧ r.opsel ≠ 0x02 ∧ r.opsel ≠ 0x03 ∧ r.opsel ≠ 0x07) ∧
    (0x07 : Byte) ∈ [0x01, 0x02, 0x03, (0x07 : Byte)] :=
  ⟨⟨{ State.reset with port := [.request ⟨0x00, []⟩] }, _, _, rfl, by decide, by decide, by decide,
    by decide⟩, by decide⟩

theorem test_witness_DecodeEncodeAgree :
    decode ⟨0x07, [.nat 0x03E8, .nat 1, .char 0x2C]⟩ = .ok (.ptd (some 1000) [0x2C]) ∧
    encode (.ptd (some 1000) [0x2C]) = ⟨0x07, [.nat 0x03E8, .nat 1, .char 0x2C]⟩ := by decide

theorem test_witness_RefusedRequests :
    (∃ (s : State) (r : Request) (rest : List HostEvent), s.port = .request r :: rest ∧
      r.opsel ∉ [0x01, 0x02, 0x03, 0x07]) ∧
    (∃ (s : State) (rest : List HostEvent) (txt : List Byte) (m : Nat),
      s.port = .request (encode (.dec txt)) :: rest ∧ s.params.txtMax = some m ∧ m < txt.length) ∧
    (∃ (s : State) (rest : List HostEvent) (threshold : Option Nat) (raw : List Byte) (m : Nat),
      s.port = .request (encode (.ptd threshold raw)) :: rest ∧ s.params.rawMax = some m ∧
        m < raw.length) :=
  ⟨⟨{ State.reset with port := [.request ⟨0x05, []⟩] }, _, _, rfl, by decide⟩,
   ⟨{ State.reset with
      port := [.request (encode (.dec text8))], params := { unboundedParams with txtMax := some 7 } },
    _, text8, 7, rfl, rfl, by decide⟩,
   ⟨{ State.reset with
      port := [.request (encode (.ptd (some 0) [0x31]))],
      params := { unboundedParams with rawMax := some 0 } },
    _, some 0, [0x31], 0, rfl, rfl, by decide⟩⟩

theorem test_witness_legal :
    State.reset.params.legal = true ∧ narrow.params.legal = true ∧
    (defaultParams (some 100)).legal = true ∧
    ({ unboundedParams with opw := some 7 } : Params).legal = false := by decide

theorem test_witness_EncResult :
    narrow.params.legal = true ∧
    (nextOf (exec (.enc 0x1FF 0x100) narrow)).map (·.tc.telegram) = some 0xFF0000FF := by decide

theorem test_witness_EncUsesLowEightBits :
    8 ≤ 8 ∧ State.reset.params.legal = true := by decide

theorem test_witness_EncTelegramProperties :
    ∃ t t', State.reset.params.legal = true ∧
      exec (.enc (0x01 : Byte).toNat (0x45 : Byte).toNat) State.reset = .next t ∧
      exec (.enc (0x01 : Byte).toNat (0x45 : Byte).toNat) State.reset = .next t' ∧
      t.tc.telegram = t'.tc.telegram :=
  ⟨afterEnc, afterEnc, by decide, (nextOf_eq_some _ _).1 (by decide),
    (nextOf_eq_some _ _).1 (by decide), rfl⟩

theorem isHex_of_all {ds : List Byte} (h : ds.all isHex = true) : ∀ ch ∈ ds, isHex ch = true :=
  List.all_eq_true.mp h

/-- Both lengths of digit string, with and without a mark, and both mismatches. -/
theorem test_witness_TelegramText :
    TelegramText text8 text8 ∧ TelegramText (0x30 :: 0x58 :: text7) text7 ∧
    (TelegramText textBadAddress textBadAddress ∧
      groupAt textBadAddress 2 ≠ 255 - groupAt textBadAddress 0) ∧
    (TelegramText textBadCommand textBadCommand ∧
      groupAt textBadCommand 2 = 255 - groupAt textBadCommand 0 ∧
      lastGroup textBadCommand ≠ 255 - groupAt textBadCommand 4) :=
  ⟨⟨⟨[], by decide, rfl⟩, .inr rfl, isHex_of_all (by decide)⟩,
   ⟨⟨[0x30, 0x58], by decide, rfl⟩, .inl rfl, isHex_of_all (by decide)⟩,
   ⟨⟨⟨[], by decide, rfl⟩, .inr rfl, isHex_of_all (by decide)⟩, by decide⟩,
   ⟨⟨⟨[], by decide, rfl⟩, .inr rfl, isHex_of_all (by decide)⟩, by decide, by decide⟩⟩

theorem test_witness_DecSuccessResult :
    ∃ ds, TelegramText (0x30 :: 0x58 :: text7) ds ∧ groupAt ds 2 = 255 - groupAt ds 0 ∧
      lastGroup ds = 255 - groupAt ds 4 :=
  ⟨text7, test_witness_TelegramText.2.1, by decide, by decide⟩

theorem test_witness_FailureZeroesUnit :
    decodeTelegram [] = .error .malformedTelegram ∧
    decodeTelegram textBadAddress = .error .addressInverseMismatch ∧
    decodeTelegram textBadCommand = .error .commandInverseMismatch ∧
    decodePulseTrain State.reset.params none [0x78] = .error .malformedPulseToken ∧
    decodePulseTrain State.reset.params (some 0) [] = .error .noDecodableFrames := by decide

theorem dec_next : exec (.dec text8) State.reset = .next afterEnc :=
  (nextOf_eq_some _ _).1 (by decide)

theorem test_witness_DecSuccessEqualsEnc :
    ∃ t, State.reset.params.legal = true ∧ exec (.dec text8) State.reset = .next t ∧ t.tc.err = 0 :=
  ⟨afterEnc, by decide, dec_next, rfl⟩

theorem test_witness_EncDecRoundTrip :
    ∃ (a c : Byte) (mark : List Byte) (t : State), State.reset.params.legal = true ∧
      mark ∈ hexMarks ∧ exec (.enc a.toNat c.toNat) State.reset = .next t :=
  ⟨0x01, 0x45, [0x30, 0x78], afterEnc, by decide, by decide, (nextOf_eq_some _ _).1 (by decide)⟩

/-- The two clauses meet between digit 3 and digit 4. -/
theorem test_witness_OneWrongDigitDetected :
    State.reset.params.legal = true ∧ [] ∈ hexMarks ∧
    exec (.enc (0x01 : Byte).toNat (0x45 : Byte).toNat) State.reset = .next afterEnc ∧
    isHex 0x46 = true ∧ 3 < 8 ∧ hexval 0x46 ≠ some (digitAt (hex8 afterEnc.tc.telegram) 3) ∧
    4 < 8 ∧ hexval 0x46 ≠ some (digitAt (hex8 afterEnc.tc.telegram) 4) ∧
    (nextOf (exec (.dec ((hex8 afterEnc.tc.telegram).set 3 0x46)) afterEnc)).map (·.tc.err) = some 2 ∧
    (nextOf (exec (.dec ((hex8 afterEnc.tc.telegram).set 4 0x46)) afterEnc)).map (·.tc.err) = some 3 :=
  ⟨by decide, by decide, (nextOf_eq_some _ _).1 (by decide), by decide, by decide, by decide, by decide,
    by decide, by decide, by decide⟩

theorem test_witness_CaseAndMarkDoNotMatter :
    (∀ ch ∈ text8, isHex ch = true) ∧ [0x30, 0x58] ∈ hexMarks :=
  ⟨isHex_of_all (by decide), by decide⟩

/-- Command 0xF5 with last group 'A' succeeds (V25), and with '0' it does not. -/
theorem test_witness_SevenDigitForm :
    isHex 0x41 = true ∧ hexval 0x41 = some (255 - (0xF5 : Byte).toNat) ∧
    isHex 0x30 = true ∧ hexval 0x30 ≠ some (255 - (0xF5 : Byte).toNat) ∧
    hexval 0x30 = some (255 - (0xFF : Byte).toNat) := by decide

theorem test_witness_DecBoundary :
    ([0x30, 0x78] ∈ hexMarks ∧ text8.length = 8 ∧ (text8.take 5).length < 6) ∧
    ([0x30, 0x78] ∈ [[0x30, 0x78], [(0x30 : Byte), 0x58]] ∧ (0x47 : Byte) ∈ [0x30, 0x47] ∧
      isHex 0x47 = false) ∧
    ((∀ rest, [(0x80 : Byte)] ≠ 0x30 :: 0x78 :: rest) ∧ (∀ rest, [(0x80 : Byte)] ≠ 0x30 :: 0x58 :: rest) ∧
      (0x80 : Byte) ∈ [(0x80 : Byte)] ∧ isHex 0x80 = false ∧ (0x7F : Byte) < 0x80) :=
  ⟨by decide, by decide, by simp, by simp, by decide, by decide, by decide⟩

/-- The clauses of the length bounds at 6, 7, 8, 9, 10 and 11 characters. -/
theorem test_witness_DecLengthBounds :
    (nextOf (exec (.dec (text8.take 6)) State.reset)).map (·.tc.err) = some 1 ∧
    (nextOf (exec (.dec text7) State.reset)).map (·.tc.err) = some 0 ∧
    (nextOf (exec (.dec text8) State.reset)).map (·.tc.err) = some 0 ∧
    (nextOf (exec (.dec (0x30 :: 0x78 :: text7)) State.reset)).map (·.tc.err) = some 0 ∧
    (nextOf (exec (.dec (0x30 :: 0x78 :: text8)) State.reset)).map (·.tc.err) = some 0 ∧
    (nextOf (exec (.dec (0x30 :: 0x78 :: 0x30 :: text8)) State.reset)).map (·.tc.err) = some 1 := by
  decide

theorem test_witness_MalformedTokenExactly :
    (∃ ch ∈ [(0x31 : Byte), 0x78], isWhitespace State.reset.params ch = false ∧ ch ≠ comma ∧
      isDigit ch = false) ∧
    (nextOf (exec (.ptd none [0x31, 0x78]) State.reset)).map (·.pd.err) = some 4 :=
  ⟨⟨0x78, by decide, by decide, by decide, by decide⟩, by decide⟩

theorem test_witness_WhitespaceVanishes : isWhitespace State.reset.params 0x0D = true := by decide

theorem plainWhitespace_unbounded : plainWhitespace unboundedParams := by
  intro ch h
  have h : ch ∈ asciiWhitespace := by simpa [isWhitespace, unboundedParams] using h
  revert ch
  decide

/-- A realisation with 13-bit durations is plain and legal too. -/
theorem test_witness_plainWhitespace_narrow :
    plainWhitespace narrow.params ∧ narrow.params.legal = true ∧ narrow.params.nfrW = none :=
  ⟨plainWhitespace_unbounded, by decide, rfl⟩

theorem test_witness_ParseReadsTokensInOrder :
    unboundedParams.durW = none ∧ plainWhitespace unboundedParams ∧
    (∀ tok ∈ [[], [(0x30 : Byte), 0x37], [0x39]], ∀ ch ∈ tok, isDigit ch = true) :=
  ⟨rfl, plainWhitespace_unbounded, by decide⟩

theorem test_witness_SegmentFramesCuts :
    (∀ x ∈ [(5000 : Nat)], x ≤ 5000) ∧ 5000 < 5001 ∧
    segmentFrames ([5000] ++ 5001 :: 7 :: []) = [[5000, 5001], [7]] ∧
    segmentFrames ([5000] ++ [5001]) = [[5000, 5001]] := by decide

theorem test_witness_FrameByteBits :
    decodeFrame .drop frameV4 700 = some 0x0D ∧ decodeFrame .fail frameV4 999 = some 0x0D := by
  decide

theorem test_witness_PlaceholderDroppedOnce : (1 : Nat) ≠ 0 := by decide

theorem test_witness_HeaderAndEndUnread :
    (2000 : Nat) ≠ 0 ∧ (1 : Nat) ≠ 0 ∧ ((frameV4.drop 2).take 16).length % 2 = 0 ∧
    [7].length ≤ 1 ∧ [8].length = [7].length ∧
    ([] : List Nat).length ≤ 1 := by decide

theorem test_witness_ThresholdReach :
    3000 ≤ 3000 ∧ decodeFrame .drop frameV4 3000 = some 0x00 ∧
    decodeFrame .drop frameV4 0 = some 0xFF := by decide

theorem test_witness_InteriorSpacesBelowGap :
    frameV4 ∈ segmentFrames (0 :: frameV4 ++ frameV4) ∧
    ((400, 1000) : Nat × Nat) ∈ interiorPairs (pairUp (pulsesOf frameV4)) := by decide

/-- Both forms, and a count of frames at the edge of NFR_W. -/
theorem test_witness_PtdSuccessResult :
    parse State.reset.params rawV4 = .ok (0 :: frameV4) ∧
    (segmentFrames (0 :: frameV4)).filterMap (fun f => decodeFrame State.reset.params.oddTail f
      ((none : Option Nat).elim 700 (saturate State.reset.params))) = [0x0D] ∧
    (segmentFrames (0 :: frameV4)).filterMap (fun f => decodeFrame State.reset.params.oddTail f
      ((some 399 : Option Nat).elim 700 (saturate State.reset.params))) = [0xFF] ∧
    0 + 1 < 2 ^ 1 := by decide

/-- V101: the byte 0x20 gives the command `unknown`, CMDK 4, and the first value no channel bits have. -/
theorem test_witness_ChannelAndCommandTables :
    (nextOf (exec (.ptd none (rawOfTrain (frameOfByte 0x20))) State.reset)).map
      (fun t => (t.pd.cmdk, t.pd.err)) = some (4, 0) ∧ 4 ≤ 4 := by decide

theorem test_witness_DefaultThresholdIs700 : narrow.params.legal = true := by decide

theorem test_witness_CaptureOfFramesDecodes :
    State.reset.params.legal = true ∧ State.reset.params.nfrW = none ∧
    plainWhitespace State.reset.params ∧ 400 ≤ (none : Option Nat).getD 700 ∧
    (none : Option Nat).getD 700 < 1000 ∧ 400 ≤ (some 400 : Option Nat).getD 700 ∧
    (some 999 : Option Nat).getD 700 < 1000 :=
  ⟨by decide, rfl, plainWhitespace_unbounded, by decide, by decide, by decide, by decide⟩

/-- The empty raw string, and a frame of 19 pulses. -/
theorem test_witness_NoDecodableFramesExactly :
    parse State.reset.params [] = .ok [] ∧ segmentFrames [] = [] ∧
    (nextOf (exec (.ptd none []) State.reset)).map (·.pd.err) = some 5 ∧
    decodeFrame .drop (frameV4.take 19) 700 = none := by decide

theorem test_witness_ShortTrainUndecodable :
    ∃ raw train t, parse State.reset.params raw = .ok train ∧ train.length < 20 ∧
      (∀ x ∈ train, x ≤ 5000) ∧ exec (.ptd none raw) State.reset = .next t :=
  ⟨rawOfTrain (frameV4.take 19), frameV4.take 19,
    { State.reset with pd := { PdRegs.zero with done := 1, err := 5 } },
    by decide, by decide, by decide, (nextOf_eq_some _ _).1 (by decide)⟩

/-- The token `10000` at the least width, 13: the largest duration is 8191. -/
theorem test_witness_SaturationChangesNothing :
    13 ≤ 13 ∧ State.reset.params.nfrW = none ∧
    parse { State.reset.params with durW := none } [0x31, 0x30, 0x30, 0x30, 0x30] = .ok [10000] ∧
    parse { State.reset.params with durW := some 13 } [0x31, 0x30, 0x30, 0x30, 0x30] = .ok [8191] := by
  decide

/-- One frame fits in one bit of NFRAMES and does not fit in none. -/
theorem test_witness_FrameCountKeptOrRefused :
    parse State.reset.params rawV4 = .ok (0 :: frameV4) ∧
    ((segmentFrames (0 :: frameV4)).filter (fun f => (decodeFrame State.reset.params.oddTail f
      (effectiveThreshold State.reset.params none)).isSome)).length = 1 ∧
    1 ≤ 1 ∧ countFits { unboundedParams with nfrW := some 1 } 1 = true ∧
    countFits { unboundedParams with nfrW := some 0 } 1 = false := by decide

theorem test_witness_UnwrittenCodes :
    ∃ t, exec (.ptd (some 0) []) State.reset = .next t := ⟨_, rfl⟩

end Sys2Proof.Tests
end

section
/-! Proofs of the statements of 00_scope.md: no state in the result (R2), one outcome for every operand (R3),
and the primitives `mask8`, `hexval`, `isDigit` and `decval` (R5, R7, R8). -/

namespace Sys2Proof.Machine

/-! ### What a result register set says of its operation (R3) -/

@[simp] theorem tcOk_tcResult (b : TelegramBytes) : tcOk (tcResult b) = true := rfl

@[simp] theorem pdOk_pdResult (b : Byte) (decoded : List Byte) : pdOk (pdResult b decoded) = true := rfl

/-- Every count fits in the unbounded NFRAMES (10_state.md R27). -/
theorem countFits_of_unbounded {p : Params} (h : p.nfrW = none) (n : Nat) : countFits p n = true := by
  simp [countFits, h]

theorem execEnc_settles (a c : Int) (s : State) :
    ∃ t, exec (.enc a c) s = .next t ∧ tcOk t.tc = true :=
  ⟨_, rfl, tcOk_tcResult _⟩

theorem execDec_settles (txt : List Byte) (s : State) :
    ∃ t, exec (.dec txt) s = .next t ∧
      (tcOk t.tc = true ∨ ∃ e, errUnit e = .tc ∧ t.tc = tcFailed e) := by
  rcases execDec_cases txt s with ⟨e, hunit, _, hexec⟩ | ⟨b, _, _, _, hexec⟩
  · exact ⟨_, hexec, .inr ⟨e, hunit, rfl⟩⟩
  · exact ⟨_, hexec, .inl (tcOk_tcResult b)⟩

/-- The third way PTD can end, the refusal of a count, is shut out by the unbounded NFRAMES. -/
theorem execPtd_settles (threshold : Option Nat) (raw : List Byte) (s : State)
    (hw : s.params.nfrW = none) :
    ∃ t, exec (.ptd threshold raw) s = .next t ∧
      (pdOk t.pd = true ∨ ∃ e, errUnit e = .pd ∧ t.pd = pdFailed e) := by
  rcases execPtd_cases threshold raw s with
    ⟨e, hunit, _, hexec⟩ | ⟨b, others, _, _, hexec⟩ | ⟨_, _, _, hfits, _⟩
  · exact ⟨_, hexec, .inr ⟨e, hunit, rfl⟩⟩
  · exact ⟨_, hexec, .inl (pdOk_pdResult b _)⟩
  · rw [countFits_of_unbounded hw] at hfits
    cases hfits

/-- Settles O7: what each operation can do, said once per operation. -/
theorem everyOperationSettles : Obligations.EveryOperationSettles :=
  ⟨execEnc_settles, execDec_settles, execPtd_settles⟩

/-! ### The result is a function of the operands (R2) -/

/-- Settles O8: the operation and the parameters fix the registers written, whatever the state. -/
theorem resultDependsOnOperandsOnly : Obligations.ResultDependsOnOperandsOnly := by
  intro i s₁ s₂ t₁ hparams hexec
  rcases exec_one_write i s₁.params with ⟨r, hunit, hwrite⟩ | ⟨r, hunit, hwrite⟩ | ⟨why, _, hrefuse⟩
  · rw [hwrite s₁ rfl] at hexec
    cases hexec
    exact ⟨_, hwrite s₂ hparams.symm, by simp [hunit]⟩
  · rw [hwrite s₁ rfl] at hexec
    cases hexec
    exact ⟨_, hwrite s₂ hparams.symm, by simp [hunit]⟩
  · rw [hrefuse s₁ rfl] at hexec
    cases hexec

/-! ### `mask8` (R5) -/

/-- The low 8 bits of a register read in two's complement. -/
theorem mask8_toInt {w : Nat} (x : BitVec w) (h : 8 ≤ w) : mask8 x.toInt = x.setWidth 8 := by
  rw [← setWidth_ofInt w _ h, BitVec.ofInt_toInt]

/-- The low 8 bits of a register read as unsigned. -/
theorem mask8_natCast_toNat {w : Nat} (x : BitVec w) (h : 8 ≤ w) :
    mask8 (x.toNat : Int) = x.setWidth 8 := by
  rw [← setWidth_ofInt w _ h, BitVec.ofInt_natCast, BitVec.ofNat_toNat, BitVec.setWidth_eq]

/-- Settles O1, by the remainder and by the low bits of a wider register. -/
theorem maskKeepsLowEightBits : Obligations.MaskKeepsLowEightBits := by
  refine ⟨fun n => ?_, fun w x h => ⟨mask8_toInt x h, mask8_natCast_toNat x h⟩⟩
  rw [mask8_toNat, Int.toNat_of_nonneg (Int.emod_nonneg n (by decide))]

/-! ### `hexval` and `isHex` (R7) -/

/-- The three ranges of `hexval` in numbers, each digit as its distance from one character code. -/
theorem hexval_eq (ch : Byte) : hexval ch =
    (if 0x30 ≤ ch.toNat ∧ ch.toNat ≤ 0x39 then some (ch.toNat - 0x30)
     else if 0x41 ≤ ch.toNat ∧ ch.toNat ≤ 0x46 then some (ch.toNat - 0x37)
     else if 0x61 ≤ ch.toNat ∧ ch.toNat ≤ 0x66 then some (ch.toNat - 0x57)
     else none) := by
  refine if_congr .rfl rfl (if_ctx_congr .rfl (fun hupper => congrArg some ?_) fun _ =>
    if_ctx_congr .rfl (fun hlower => congrArg some ?_) fun _ => rfl)
  · omega
  · omega

theorem isHex_iff (ch : Byte) : isHex ch = true ↔ hexval ch ≠ none :=
  Option.isSome_iff_ne_none

/-- Settles O3: the table of `hexval`, and a count over the 256 characters. -/
theorem hexDigitValues : Obligations.HexDigitValues :=
  ⟨hexval_eq, isHex_iff, by decide⟩

/-! ### `isDigit` and `decval` (R8) -/

theorem isDigit_iff (ch : Byte) : isDigit ch = true ↔ 0x30 ≤ ch.toNat ∧ ch.toNat ≤ 0x39 := by
  simp [isDigit, BitVec.le_def]

/-- The value of the character of a decimal digit. -/
theorem digitChar_toNat {d : Nat} (h : d < 10) : (BitVec.ofNat 8 (0x30 + d)).toNat - 0x30 = d := by
  rw [BitVec.toNat_ofNat]
  omega

/-- A character more at the end of a token is one decimal place more. -/
theorem decval_concat (tok : List Byte) (ch : Byte) :
    decval (tok ++ [ch]) = decval tok * 10 + (ch.toNat - 0x30) := by
  simp [decval]

theorem decval_concat_digit (tok : List Byte) {d : Nat} (h : d < 10) :
    decval (tok ++ [BitVec.ofNat 8 (0x30 + d)]) = decval tok * 10 + d := by
  rw [decval_concat, digitChar_toNat h]

/-- A zero in front leaves the number read so far at 0. -/
theorem decval_zero_cons (tok : List Byte) : decval (0x30 :: tok) = decval tok := rfl

/-- Settles O4: one decimal place at a time; the one-digit token is a digit after the empty token. -/
theorem decimalTokenValue : Obligations.DecimalTokenValue := by
  refine ⟨isDigit_iff, fun tok d h => decval_concat_digit tok h, fun d h => ?_, decval_zero_cons⟩
  calc decval [BitVec.ofNat 8 (0x30 + d)]
      = decval [] * 10 + d := decval_concat_digit [] h
    _ = d := by simp [decval]

end Sys2Proof.Machine
end

section
/-! Proofs of the statements of 10_state.md: every register is zero after reset (R35), DONE is cleared by reset
alone (R22, R29), and NFRAMES holds the count of the frames that gave a byte (R27). -/

namespace Sys2Proof.Machine

/-! ### The count of decoded frames (R27) -/

/-- There is one decoded byte for each frame that gives one (43_pulse_train_decode.md R171). -/
theorem decodedBytes_length (odd : OddTail) (threshold : Nat) (train : List Nat) :
    (decodedBytes odd threshold train).length =
      ((segmentFrames train).filter (fun f => (decodeFrame odd f threshold).isSome)).length := by
  rw [decodedBytes, List.length_filterMap_eq_countP, List.countP_eq_length_filter]

/-- PTD on a train of which at least one frame decodes: only the width of NFRAMES can still refuse it. -/
theorem execPtd_eq_of_decodedBytes {threshold : Option Nat} {raw : List Byte} {s : State}
    {train : List Nat} {b : Byte} {others : List Byte} (hparse : parse s.params raw = .ok train)
    (hbytes : decodedBytes s.params.oddTail (effectiveThreshold s.params threshold) train =
      b :: others) :
    execPtd threshold raw s =
      if countFits s.params (b :: others).length then .next (writePd (pdResult b (b :: others)) s)
      else .refused .frameCountTooWide := by
  simp only [execPtd, decodePulseTrain, hparse, hbytes]

/-- Settles O59: at least one frame decodes, so PTD writes its count or refuses it. -/
theorem frameCountKeptOrRefused : Obligations.FrameCountKeptOrRefused := by
  intro threshold raw s train n hparse hcount hpos
  rw [← decodedBytes_length] at hcount
  obtain ⟨b, others, hbytes⟩ := List.exists_cons_of_length_pos (hcount ▸ hpos)
  rw [hbytes] at hcount
  have hexec := execPtd_eq_of_decodedBytes hparse hbytes
  rw [hcount] at hexec
  constructor
  · intro hfits
    exact ⟨_, hexec.trans (by rw [if_pos hfits]), hcount, pdOk_pdResult b _⟩
  · intro hwide
    exact hexec.trans (by simp [hwide])

/-! ### DONE (R22, R29) -/

/-- An operation sets DONE of its own unit and leaves the other unit alone. -/
theorem exec_next_done {i : Instr} {s t : State} (h : exec i s = .next t) :
    (isTcOp i = true ∧ t.tc.done = 1 ∧ t.pd = s.pd) ∨
    (isTcOp i = false ∧ t.pd.done = 1 ∧ t.tc = s.tc) := by
  rcases exec_next_cases h with ⟨_, _, _, hop, rfl⟩ | ⟨_, _, _, rfl, rfl⟩ |
    ⟨_, _, _, _, rfl, _, rfl⟩ | ⟨_, _, _, _, rfl, rfl⟩
  · rcases hop with ⟨_, _, rfl⟩ | ⟨_, rfl⟩ <;> exact .inl ⟨rfl, rfl, rfl⟩
  · exact .inl ⟨rfl, rfl, rfl⟩
  · exact .inr ⟨rfl, rfl, rfl⟩
  · exact .inr ⟨rfl, rfl, rfl⟩

/-- An operation clears neither DONE bit. -/
theorem exec_keeps_done {i : Instr} {s t : State} (h : exec i s = .next t) :
    (s.tc.done = 1 → t.tc.done = 1) ∧ (s.pd.done = 1 → t.pd.done = 1) := by
  rcases exec_next_done h with ⟨_, hdone, hother⟩ | ⟨_, hdone, hother⟩
  · exact ⟨fun _ => hdone, fun hpd => by rw [hother, hpd]⟩
  · exact ⟨fun htc => by rw [hother, htc], fun _ => hdone⟩

/-- A step that performs no reset event clears neither DONE bit: the block waits or performs an operation. -/
theorem step_keeps_done {s t : State} (h : step s = .next t) (hreset : s.port.head? ≠ some .reset) :
    (s.tc.done = 1 → t.tc.done = 1) ∧ (s.pd.done = 1 → t.pd.done = 1) := by
  rcases step_next_cases h with ⟨_, rfl⟩ | ⟨rest, hport, _⟩ | ⟨_, _, i, _, _, _, hexec⟩
  · exact ⟨id, id⟩
  · exact absurd (by rw [hport]; rfl) hreset
  · exact exec_keeps_done (s := popEvent s) hexec

/-- Settles O10: what an operation does to DONE, said once per unit, and then what a step does. -/
theorem doneBitsOnlyClearedByReset : Obligations.DoneBitsOnlyClearedByReset := by
  refine ⟨rfl, rfl, fun i s t hexec => ?_, fun s t hstep hreset => step_keeps_done hstep hreset⟩
  rcases exec_next_done hexec with ⟨hop, hdone, _⟩ | ⟨hop, hdone, _⟩ <;> simp [hop, hdone]

/-! ### The state after reset (R35) -/

theorem readReg_reset (r : ResultReg) : readReg State.reset r = 0 := by
  cases r <;> rfl

/-- Settles O5: each register, view and status word by name, and the two OK flags. -/
theorem resetRegistersZero : Obligations.ResetRegistersZero :=
  ⟨readReg_reset, rfl, rfl⟩

end Sys2Proof.Machine
end

section
/-! Proofs of the statements of 30_encoding.md section 1: the request formats E, P and D (R71 to R73), and the
reserved OPSEL values (R74). -/

namespace Sys2Proof

/-! ### The request formats (R71 to R73) -/

theorem decode_formatE (ops : List Operand) : decode ⟨0x01, ops⟩ = decodeFormatE ops := by
  simp [decode, formatOf_eq]

theorem decode_formatD (ops : List Operand) : decode ⟨0x02, ops⟩ = decodeFormatD ops := by
  simp [decode, formatOf_eq]

theorem decode_formatP_noThreshold (ops : List Operand) :
    decode ⟨0x03, ops⟩ = decodeFormatP false ops := by
  simp [decode, formatOf_eq, tenBit]

theorem decode_formatP_threshold (ops : List Operand) :
    decode ⟨0x07, ops⟩ = decodeFormatP true ops := by
  simp [decode, formatOf_eq, tenBit]

/-- The decoder reads back what the encoder writes; only the text and the raw string need an argument, for
their length word counts their characters. -/
theorem decode_encode : ∀ i : Instr, decode (encode i) = .ok i
  | .enc a c => by rw [encode, decode_formatE, decodeFormatE]
  | .dec txt => by
    rw [encode, decode_formatD, decodeFormatD, decodeText_encodeText, Except.map]
  | .ptd none raw => by
    rw [encode, decode_formatP_noThreshold, decodeFormatP, decodeText_encodeText, Except.map]
  | .ptd (some t) raw => by
    rw [encode, decode_formatP_threshold, decodeFormatP, decodeText_encodeText, Except.map]

/-- Settles O20: the words of each form are those the encoder gives. -/
theorem requestFormats : Obligations.RequestFormats :=
  ⟨fun a c => decode_encode (.enc a c), fun txt => decode_encode (.dec txt),
    fun raw => decode_encode (.ptd none raw), fun t raw => decode_encode (.ptd (some t) raw)⟩

/-! ### The reserved OPSEL values (R74) -/

theorem formatOf_eq_none_iff (opsel : Byte) :
    formatOf opsel = none ↔ opsel ∉ [0x01, 0x02, 0x03, 0x07] := by
  rw [formatOf_eq]
  split_ifs with hE hD hP <;> simp_all

theorem decode_of_formatOf_eq_none {r : Request} (h : formatOf r.opsel = none) :
    decode r = .error (.reservedOpsel r.opsel) := by
  simp only [decode, h]

theorem decodeText_ne_reservedOpsel (ops : List Operand) (v : Byte) :
    decodeText ops ≠ .error (.reservedOpsel v) := by
  unfold decodeText
  split
  · split
    · split <;> simp
    · simp
  · simp

/-- What the characters are wrapped in does not change the reject. -/
theorem decodeText_map_ne_reservedOpsel (f : List Byte → Instr) (ops : List Operand) (v : Byte) :
    (decodeText ops).map f ≠ .error (.reservedOpsel v) := by
  have htext := decodeText_ne_reservedOpsel ops v
  cases hres : decodeText ops with
  | ok cs => simp [Except.map]
  | error why => simpa [hres, Except.map] using htext

theorem decodeFormatE_ne_reservedOpsel (ops : List Operand) (v : Byte) :
    decodeFormatE ops ≠ .error (.reservedOpsel v) := by
  unfold decodeFormatE
  split <;> simp

theorem decodeFormatP_ne_reservedOpsel (ten : Bool) (ops : List Operand) (v : Byte) :
    decodeFormatP ten ops ≠ .error (.reservedOpsel v) := by
  unfold decodeFormatP
  split
  · exact decodeText_map_ne_reservedOpsel _ _ v
  · exact decodeText_map_ne_reservedOpsel _ _ v
  · simp

/-- A format, once selected, rejects operand words only under its own names (assumption 3). -/
theorem decode_ne_reservedOpsel {r : Request} (h : formatOf r.opsel ≠ none) (v : Byte) :
    decode r ≠ .error (.reservedOpsel v) := by
  unfold decode
  split
  · contradiction
  · exact decodeFormatE_ne_reservedOpsel _ v
  · exact decodeText_map_ne_reservedOpsel _ _ v
  · exact decodeFormatP_ne_reservedOpsel _ _ v

end Sys2Proof

namespace Sys2Proof.Machine

/-- A request that selects no operation has no step, and is refused under the decoder's name for it. -/
theorem step_eq_refused_of_decode_error {s : State} {r : Request} {rest : List HostEvent}
    {why : DecodeReject} (hport : s.port = .request r :: rest) (hdecode : decode r = .error why) :
    step s = .refused (.notARequest why) := by
  simp only [step, hport, acceptRequest, hdecode]

/-- Settles O19: OPSEL alone decides whether a request is rejected as reserved, and a rejected request is
refused from every state. -/
theorem reservedOpselRefused : Obligations.ReservedOpselRefused := by
  constructor
  · intro s r rest hport h01 h02 h03 h07
    have hformat : formatOf r.opsel = none :=
      (formatOf_eq_none_iff r.opsel).mpr (by simpa using ⟨h01, h02, h03, h07⟩)
    exact step_eq_refused_of_decode_error hport (decode_of_formatOf_eq_none hformat)
  · intro opsel v ops hmem
    exact decode_ne_reservedOpsel
      (fun hformat => (formatOf_eq_none_iff opsel).mp hformat hmem) v

end Sys2Proof.Machine
end

section
/-! Proofs of the statements of 40_telegram_codec.md: the result of ENC (R100 to R104), the result of a
successful DEC (R116), and the texts that are too short or hold a character that is no digit (R122). -/

namespace Sys2Proof.Machine

/-! ### The Telegram of two Bytes and their inverses (R103) -/

/-- ENC and a successful DEC leave the canonical Telegram of the address and the command. -/
theorem tcResult_telegram_toNat {b : TelegramBytes} (ha : b.addrInv = inv8 b.addr)
    (hc : b.cmdInv = inv8 b.cmd) :
    (tcResult b).telegram.toNat = telegramNumber b.addr.toNat b.cmd.toNat := by
  simp only [tcResult, pack_toNat, ha, hc, inv8_toNat, telegramNumber]

/-! ### ENC (R100 to R104) -/

theorem exec_enc_eq (a c : Int) {s : State} (h : s.params.legal = true) :
    exec (.enc a c) s = .next (writeTc (tcResult (encodeTelegram a c)) s) :=
  execEnc_eq a c s h

/-- Settles O24: the one write of ENC, with its Telegram as a number and as a valid one. -/
theorem encResult : Obligations.EncResult := by
  intro a c s hlegal
  refine ⟨_, exec_enc_eq a c hlegal, ?_, rfl, rfl, tcOk_tcResult _, validTelegram_pack _ _,
    rfl, rfl, rfl⟩
  rw [writeTc_tc, tcResult_telegram_toNat rfl rfl]
  simp only [encodeTelegram, mask8_toNat]

/-- A multiple of 256 does not reach the low 8 bits. -/
theorem mask8_add_mul_256 (n j : Int) : mask8 (n + 256 * j) = mask8 n := by
  apply BitVec.eq_of_toNat_eq
  rw [mask8_toNat, mask8_toNat, Int.add_mul_emod_self_left]

/-- ENC reads no more of an operand than its Byte. -/
theorem encodeTelegram_congr {a c a' c' : Int} (ha : mask8 a = mask8 a') (hc : mask8 c = mask8 c') :
    encodeTelegram a c = encodeTelegram a' c' := by
  simp only [encodeTelegram, ha, hc]

theorem exec_enc_congr {a c a' c' : Int} (ha : mask8 a = mask8 a') (hc : mask8 c = mask8 c')
    {s : State} (h : s.params.legal = true) : exec (.enc a c) s = exec (.enc a' c') s := by
  rw [exec_enc_eq a c h, exec_enc_eq a' c' h, encodeTelegram_congr ha hc]

/-- Any operand width of 8 or more bits is allowed (92_eei_decisions.md D4). -/
theorem legal_with_opw {p : Params} {w : Nat} (hw : 8 ≤ w) (h : p.legal = true) :
    { p with opw := some w }.legal = true := by
  simp only [Params.legal, Bool.and_eq_true] at h ⊢
  exact ⟨decide_eq_true hw, h.2⟩

/-- Settles O25: operands with one Byte have one result, and every legal width keeps the Byte. -/
theorem encUsesLowEightBits : Obligations.EncUsesLowEightBits := by
  refine ⟨fun a c j k s h => ?_, fun a c w s hw h => ?_, fun s h => ⟨?_, ?_, ?_⟩⟩
  · exact exec_enc_congr (mask8_add_mul_256 a j) (mask8_add_mul_256 c k) h
  · exact ⟨_, _, exec_enc_eq a c h, exec_enc_eq a c (legal_with_opw hw h), rfl, rfl⟩
  · exact exec_enc_congr (by decide) (by decide) h
  · exact exec_enc_congr (by decide) (by decide) h
  · exact exec_enc_congr (by decide) (by decide) h

/-! ### The digit string of a text (R111) -/

/-- A mark in front of a string is cut off whole. -/
theorem digitString_mark_append {mark : List Byte} (hmark : mark ∈ [[0x30, 0x78], [0x30, 0x58]])
    (ds : List Byte) : digitString (mark ++ ds) = ds := by
  rcases List.mem_pair.mp hmark with rfl | rfl
  · exact digitString_lower ds
  · exact digitString_upper ds

/-- `hexMarks` has the two marks and the empty one. -/
theorem mem_hexMarks {mark : List Byte} :
    mark ∈ hexMarks ↔ mark = [] ∨ mark ∈ [[0x30, 0x78], [0x30, 0x58]] := by
  rw [hexMarks, List.mem_cons]

theorem digitString_eq_self_of_no_mark {txt : List Byte} (hlower : ∀ rest, txt ≠ 0x30 :: 0x78 :: rest)
    (hupper : ∀ rest, txt ≠ 0x30 :: 0x58 :: rest) : digitString txt = txt := by
  rcases digitString_cases txt with ⟨htxt, _⟩ | ⟨htxt, _⟩ | ⟨htxt, _⟩
  · exact absurd htxt (hlower _)
  · exact absurd htxt (hupper _)
  · exact htxt.symm

theorem digitString_length_le (txt : List Byte) : (digitString txt).length ≤ txt.length := by
  unfold digitString
  split
  · exact (List.drop_sublist 2 txt).length_le
  · exact le_rfl

/-- An inequality, since `ds` after the empty mark can begin with a mark of its own, which is cut off. -/
theorem digitString_append_length_le {mark : List Byte} (hmark : mark ∈ hexMarks) (ds : List Byte) :
    (digitString (mark ++ ds)).length ≤ ds.length := by
  rcases mem_hexMarks.mp hmark with rfl | hmark
  · exact digitString_length_le ds
  · rw [digitString_mark_append hmark]

theorem digitString_of_telegramText {txt ds : List Byte} (h : TelegramText txt ds) :
    digitString txt = ds := by
  obtain ⟨⟨mark, hmark, rfl⟩, _, hhex⟩ := h
  rcases mem_hexMarks.mp hmark with rfl | hmark
  · exact digitString_of_isHex ds hhex
  · exact digitString_mark_append hmark ds

/-! ### The four groups of a well-formed text (R112, R114) -/

theorem digitAt_lt (ds : List Byte) (i : Nat) : digitAt ds i < 16 := by
  unfold digitAt
  cases hdigit : (ds[i]?).bind hexval with
  | none => decide
  | some v =>
    obtain ⟨ch, _, hch⟩ := Option.bind_eq_some_iff.mp hdigit
    exact hexval_lt hch

theorem groupAt_lt (ds : List Byte) (i : Nat) : groupAt ds i < 256 := by
  have hhi := digitAt_lt ds i
  have hlo := digitAt_lt ds (i + 1)
  unfold groupAt
  omega

/-- The four Bytes that a digit string of 7 or 8 digits spells. -/
def bytesOfDigits (ds : List Byte) : TelegramBytes :=
  ⟨BitVec.ofNat 8 (groupAt ds 0), BitVec.ofNat 8 (groupAt ds 2), BitVec.ofNat 8 (groupAt ds 4),
    BitVec.ofNat 8 (lastGroup ds)⟩

theorem bytesOfDigits_addr_toNat (ds : List Byte) :
    (bytesOfDigits ds).addr.toNat = groupAt ds 0 :=
  (BitVec.toNat_ofNat _ _).trans (Nat.mod_eq_of_lt (groupAt_lt ds 0))

theorem bytesOfDigits_cmd_toNat (ds : List Byte) :
    (bytesOfDigits ds).cmd.toNat = groupAt ds 4 :=
  (BitVec.toNat_ofNat _ _).trans (Nat.mod_eq_of_lt (groupAt_lt ds 4))

/-- A text of the grammar passes the structure check, with the Bytes its digits spell. -/
theorem telegramFields_of_telegramText {txt ds : List Byte} (h : TelegramText txt ds) :
    telegramFields txt = some (bytesOfDigits ds) := by
  have hds := digitString_of_telegramText h
  obtain ⟨_, hlength, hhex⟩ := h
  rw [telegramFields_of_isHex txt (hds.symm ▸ hhex), hds]
  rcases hlength with hlength | hlength
  · match ds, hlength with
    | [_, _, _, _, _, _, _], _ => simp [bytesOfDigits, groupByte, groupAt, lastGroup, digitAt]
  · match ds, hlength with
    | [_, _, _, _, _, _, _, _], _ => rfl

/-! ### DEC of a well-formed text (R115, R116) -/

/-- The inverse of a Byte given by its number. -/
theorem ofNat_eq_inv8 {n m : Nat} (hm : m < 256) (h : n = 255 - m) :
    BitVec.ofNat 8 n = inv8 (BitVec.ofNat 8 m) := by
  apply BitVec.eq_of_toNat_eq
  rw [inv8_toNat, BitVec.toNat_ofNat, BitVec.toNat_ofNat]
  omega

theorem exec_dec_of_fields_inverse {txt : List Byte} {b : TelegramBytes}
    (hfields : telegramFields txt = some b) (ha : b.addrInv = inv8 b.addr)
    (hc : b.cmdInv = inv8 b.cmd) (s : State) :
    exec (.dec txt) s = .next (writeTc (tcResult b) s) := by
  simp [exec, execDec, decodeTelegram, hfields, ha, hc]

/-- Settles O31: both checks hold of the Bytes the digits spell, so DEC writes them. -/
theorem decSuccessResult : Obligations.DecSuccessResult := by
  intro txt ds s htext haddr hcmd
  have ha : (bytesOfDigits ds).addrInv = inv8 (bytesOfDigits ds).addr :=
    ofNat_eq_inv8 (groupAt_lt ds 0) haddr
  have hc : (bytesOfDigits ds).cmdInv = inv8 (bytesOfDigits ds).cmd :=
    ofNat_eq_inv8 (groupAt_lt ds 4) hcmd
  have hexec := exec_dec_of_fields_inverse (telegramFields_of_telegramText htext) ha hc s
  refine ⟨_, hexec, ?_, rfl, rfl, ?_, ?_, rfl, rfl, rfl⟩
  · rw [writeTc_tc, tcResult_telegram_toNat ha hc, bytesOfDigits_addr_toNat,
      bytesOfDigits_cmd_toNat]
  · rw [readReg, writeTc_tc, tcResult, addrOf_pack, bytesOfDigits_addr_toNat]
  · rw [readReg, writeTc_tc, tcResult, cmdOf_pack, bytesOfDigits_cmd_toNat]

/-! ### DEC of a text that fails the structure check (R112, R122) -/

theorem exec_dec_of_telegramFields_eq_none {txt : List Byte} (h : telegramFields txt = none)
    (s : State) :
    exec (.dec txt) s = .next (writeTc (tcFailed .malformedTelegram) s) := by
  simp only [exec, execDec, decodeTelegram, h]
  rfl

/-- A run of hexadecimal digits gives one value for each character. -/
theorem hexDigits_length {ds : List Byte} {vs : List Nat} (h : hexDigits ds = some vs) :
    vs.length = ds.length := by
  induction ds generalizing vs with
  | nil => cases h; rfl
  | cons ch rest ih =>
    unfold hexDigits at h
    split at h
    · rename_i hrest
      cases h
      rw [List.length_cons, List.length_cons, ih hrest]
    · cases h

/-- The structure check fails on a digit string that is too short. -/
theorem telegramFields_eq_none_of_short {txt : List Byte} (h : (digitString txt).length < 7) :
    telegramFields txt = none := by
  have hshort : ∀ vs, hexDigits (digitString txt) = some vs → vs.length < 7 :=
    fun vs hvs => hexDigits_length hvs ▸ h
  unfold telegramFields
  split
  · exact absurd (hshort _ ‹_›) (by simp)
  · exact absurd (hshort _ ‹_›) (by simp)
  · rfl

/-- DEC reports a character of the digit string that is no hexadecimal digit. -/
theorem exec_dec_err_of_not_isHex {txt : List Byte} {ch : Byte} (hmem : ch ∈ digitString txt)
    (hhex : isHex ch = false) (s : State) :
    ∃ t, exec (.dec txt) s = .next t ∧ t.tc.err = 1 :=
  ⟨_, exec_dec_of_telegramFields_eq_none (telegramFields_eq_none hmem hhex) s, rfl⟩

/-- DEC reports a digit string that is too short. -/
theorem exec_dec_err_of_short {txt : List Byte} (h : (digitString txt).length < 7) (s : State) :
    ∃ t, exec (.dec txt) s = .next t ∧ t.tc.err = 1 :=
  ⟨_, exec_dec_of_telegramFields_eq_none (telegramFields_eq_none_of_short h) s, rfl⟩

/-- 'f' is the last hexadecimal digit in the order of the character codes. -/
theorem isHex_eq_false_of_gt {ch : Byte} (h : 0x66 < ch.toNat) : isHex ch = false := by
  have hval : hexval ch = none := by
    rw [hexval_eq, if_neg (by omega), if_neg (by omega), if_neg (by omega)]
  rw [isHex, hval, Option.isSome_none]

/-- Settles O38: every text of the first three clauses fails the structure check. -/
theorem decBoundary : Obligations.DecBoundary := by
  refine ⟨fun ds mark s hmark hshort => ?_, fun ds mark ch s hmark hmem hhex => ?_,
    fun txt ch s hlower hupper hmem hhex => ?_, fun ch hch => ?_⟩
  · have hle := digitString_append_length_le hmark ds
    exact exec_dec_err_of_short (by omega) s
  · exact exec_dec_err_of_not_isHex (by rwa [digitString_mark_append hmark]) hhex s
  · exact exec_dec_err_of_not_isHex (by rwa [digitString_eq_self_of_no_mark hlower hupper]) hhex s
  · rcases hch with hlisted | hhigh
    · revert ch
      decide
    · have hcode : 0x7F < ch.toNat := hhigh
      exact isHex_eq_false_of_gt (by omega)

end Sys2Proof.Machine
end

section
/-! Proofs of the statements of 41_pulse_parse_segment.md: white space in a raw string (R131), the pulses of a
raw string (R134), durations that saturate (R136), and the cuts of segmentFrames (R141 to R143). -/

namespace Sys2Proof.Machine

/-! ### White space (R131) -/

theorem parse_append_cons_whitespace {p : Params} {ch : Byte} (h : isWhitespace p ch = true)
    (before after : List Byte) : parse p (before ++ ch :: after) = parse p (before ++ after) := by
  simp [parse, h]

/-- PTD reads no more of a raw string than its train. -/
theorem exec_ptd_congr {s : State} {raw raw' : List Byte} (h : parse s.params raw = parse s.params raw')
    (threshold : Option Nat) : exec (.ptd threshold raw) s = exec (.ptd threshold raw') s := by
  simp only [exec, execPtd, decodePulseTrain, h]

theorem isWhitespace_unbounded_iff (ch : Byte) :
    isWhitespace unboundedParams ch = true ↔ ch ∈ asciiWhitespace :=
  List.contains_iff_mem

/-- Settles O41: parse takes the character out before it reads anything else. -/
theorem whitespaceVanishes : Obligations.WhitespaceVanishes := by
  refine ⟨fun threshold before after ch s h => ?_, isWhitespace_unbounded_iff, rfl⟩
  exact exec_ptd_congr (parse_append_cons_whitespace h before after) threshold

/-! ### Tokens in order (R134) -/

theorem ne_comma_of_isDigit {ch : Byte} (h : isDigit ch = true) : ch ≠ comma := by
  rintro rfl
  exact absurd h (by decide)

/-- A string without a comma is one token. -/
theorem splitCommas_eq_singleton {l : List Byte} (h : comma ∉ l) : splitCommas l = [l] := by
  induction l with
  | nil => rfl
  | cons ch l ih =>
    rw [List.mem_cons, not_or] at h
    rw [splitCommas, if_neg (Ne.symm h.1), ih h.2]

/-- Tokens joined by commas are cut apart again, except that no token at all reads as one empty token. -/
theorem splitCommas_joinCommas {toks : List (List Byte)} (hne : toks ≠ [])
    (h : ∀ tok ∈ toks, comma ∉ tok) : splitCommas (joinCommas toks) = toks := by
  induction toks with
  | nil => exact absurd rfl hne
  | cons tok toks ih =>
    obtain ⟨htok, htoks⟩ := List.forall_mem_cons.mp h
    cases toks with
    | nil => exact splitCommas_eq_singleton htok
    | cons next toks =>
      calc splitCommas (tok ++ comma :: joinCommas (next :: toks))
          = [tok] ++ splitCommas (joinCommas (next :: toks)) := by
            rw [splitCommas_append_comma, splitCommas_eq_singleton htok]
        _ = tok :: next :: toks := by rw [ih (List.cons_ne_nil _ _) htoks, List.singleton_append]

/-- White space that is plain takes nothing from a string of digits and commas. -/
theorem parse_of_digits_and_commas {p : Params} (hplain : plainWhitespace p) {raw : List Byte}
    (h : ∀ ch ∈ raw, ch ≠ comma → isDigit ch = true) :
    parse p raw = parseTokens p (splitCommas raw) := by
  have hkept : raw.filter (fun ch => !isWhitespace p ch) = raw := by
    rw [List.filter_eq_self]
    intro ch hmem
    rw [Bool.not_eq_true', Bool.eq_false_iff]
    intro hspace
    obtain ⟨hcomma, hdigit⟩ := hplain ch hspace
    rw [h ch hmem hcomma] at hdigit
    cases hdigit
  rw [parse, hkept]

theorem parse_joinCommas {p : Params} (hplain : plainWhitespace p) {toks : List (List Byte)}
    (h : ∀ tok ∈ toks, ∀ ch ∈ tok, isDigit ch = true) :
    parse p (joinCommas toks) =
      .ok ((toks.filter (fun tok => !tok.isEmpty)).map (fun tok => saturate p (decval tok))) := by
  by_cases hne : toks = []
  · rw [hne]
    rfl
  · have hsplit : splitCommas (joinCommas toks) = toks :=
      splitCommas_joinCommas hne fun tok ht hc => ne_comma_of_isDigit (h tok ht _ hc) rfl
    rw [parse_of_digits_and_commas hplain, hsplit, parseTokens_ok p toks h]
    intro ch hmem hcomma
    obtain ⟨tok, htok, hch⟩ := (mem_splitCommas _ ch).mpr ⟨hmem, hcomma⟩
    rw [hsplit] at htok
    exact h tok htok ch hch

theorem saturate_of_unbounded {p : Params} (h : p.durW = none) (n : Nat) : saturate p n = n := by
  rw [saturate, h]

/-! ### The base-ten spelling of a number (00_scope.md R8, R9) -/

theorem isDigit_digitChar {d : Nat} (h : d < 10) : isDigit (BitVec.ofNat 8 (0x30 + d)) = true := by
  rw [isDigit_iff, BitVec.toNat_ofNat]
  omega

theorem isDigit_of_mem_decDigits (fuel n : Nat) : ∀ ch ∈ decDigits fuel n, isDigit ch = true := by
  induction fuel generalizing n with
  | zero => simp [decDigits]
  | succ fuel ih =>
    unfold decDigits
    split
    · simpa using isDigit_digitChar ‹_›
    · rw [List.forall_mem_append]
      exact ⟨ih _, by simpa using isDigit_digitChar (Nat.mod_lt n (by decide))⟩

/-- Fuel above the number reaches its first digit. -/
theorem decval_decDigits {fuel n : Nat} (h : n < fuel) : decval (decDigits fuel n) = n := by
  induction fuel generalizing n with
  | zero => omega
  | succ fuel ih =>
    unfold decDigits
    split
    · simpa [decval] using decval_concat_digit [] ‹n < 10›
    · rw [decval_concat_digit _ (Nat.mod_lt n (by decide)), ih (by omega)]
      omega

theorem isDigit_of_mem_decChars {n : Nat} {ch : Byte} (h : ch ∈ decChars n) : isDigit ch = true :=
  isDigit_of_mem_decDigits _ _ ch h

@[simp] theorem decval_decChars (n : Nat) : decval (decChars n) = n :=
  decval_decDigits (Nat.lt_succ_self n)

@[simp] theorem decChars_ne_nil (n : Nat) : decChars n ≠ [] := by
  unfold decChars decDigits
  split <;> simp

theorem parse_rawOfTrain {p : Params} (hplain : plainWhitespace p) (train : List Nat) :
    parse p (rawOfTrain train) = .ok (train.map (saturate p)) := by
  have hdigits : ∀ tok ∈ train.map decChars, ∀ ch ∈ tok, isDigit ch = true := by
    simp only [List.forall_mem_map]
    exact fun n _ ch => isDigit_of_mem_decChars
  have hkept : (train.map decChars).filter (fun tok => !tok.isEmpty) = train.map decChars := by
    simp [List.filter_eq_self]
  rw [rawOfTrain, parse_joinCommas hplain hdigits, hkept, List.map_map]
  simp [Function.comp_def]

/-- Settles O43: the unbounded reading keeps the value of every token. -/
theorem parseReadsTokensInOrder : Obligations.ParseReadsTokensInOrder := by
  refine ⟨fun p toks hw hplain h => ?_, fun p train hw hplain => ?_⟩
  · rw [parse_joinCommas hplain h]
    simp only [saturate_of_unbounded hw]
  · rw [parse_rawOfTrain hplain, List.map_congr_left fun n _ => saturate_of_unbounded hw n,
      List.map_id']

/-! ### The cuts of segmentFrames (R141 to R143) -/

/-- A pulse above 5000 that is not the last closes its frame. -/
theorem segmentFrom_gap_cons {gap : Nat} (h : 5000 < gap) (cur : List Nat) (next : Nat)
    (rest : List Nat) :
    segmentFrom cur (gap :: next :: rest) = (cur ++ [gap]) :: segmentFrames (next :: rest) := by
  rw [segmentFrom, if_pos ⟨h, rfl⟩, segmentFrames]

/-- The last pulse, of whatever length, ends the final frame. -/
theorem segmentFrom_singleton (cur : List Nat) (last : Nat) :
    segmentFrom cur [last] = [cur ++ [last]] := by
  simp [segmentFrom]

/-- Settles O44: the pulses before the first gap go to the current frame, then the gap or the end cuts. -/
theorem segmentFramesCuts : Obligations.SegmentFramesCuts := by
  refine ⟨rfl, fun low rest gap next hlow hgap => ?_, fun low last hlow => ?_⟩
  · rw [segmentFrames, segmentFrom_append_low _ _ _ hlow, segmentFrom_gap_cons hgap, List.nil_append]
  · rw [segmentFrames, segmentFrom_append_low _ _ _ hlow, segmentFrom_singleton, List.nil_append]

/-! ### Durations that saturate (R136)

`M` is the largest duration; the pulses of the saturated train are those of the unbounded one cut at `M`.
Every test on a duration answers the same before and after the cut. -/

section
variable {M : Nat}

theorem segmentFrom_map_min (hM : gapMin < M) (cur l : List Nat) :
    segmentFrom (cur.map (min · M)) (l.map (min · M)) =
      (segmentFrom cur l).map (List.map (min · M)) := by
  induction l generalizing cur with
  | nil => cases cur <;> rfl
  | cons x l ih =>
    have htest : (gapMin < min x M ∧ (!(l.map (min · M)).isEmpty) = true) ↔
        (gapMin < x ∧ (!l.isEmpty) = true) := by
      rw [lt_min_iff, and_iff_left hM, List.isEmpty_map]
    have hcur : cur.map (min · M) ++ [min x M] = (cur ++ [x]).map (min · M) := by simp
    rw [List.map_cons, segmentFrom, segmentFrom, if_congr htest rfl rfl, hcur, ih]
    split
    · rw [List.map_cons, ← ih [], List.map_nil]
    · rfl

theorem segmentFrames_map_min (hM : gapMin < M) (train : List Nat) :
    segmentFrames (train.map (min · M)) = (segmentFrames train).map (List.map (min · M)) :=
  segmentFrom_map_min hM [] train

theorem dropPlaceholder_map_min (hM : 0 < M) (frame : List Nat) :
    dropPlaceholder (frame.map (min · M)) = (dropPlaceholder frame).map (min · M) := by
  cases frame with
  | nil => rfl
  | cons x rest =>
    cases x with
    | zero => simp [dropPlaceholder]
    | succ x =>
      obtain ⟨y, hy⟩ : ∃ y, min (x + 1) M = y + 1 := ⟨min (x + 1) M - 1, by omega⟩
      simp [dropPlaceholder, hy]

theorem pairUp_map (f : Nat → Nat) : ∀ l, pairUp (l.map f) = (pairUp l).map (Prod.map f f)
  | [] => rfl
  | [_] => rfl
  | x :: y :: l => congrArg ((f x, f y) :: ·) (pairUp_map f l)

theorem interiorPairs_map (f : Nat × Nat → Nat × Nat) (pairs : List (Nat × Nat)) :
    interiorPairs (pairs.map f) = (interiorPairs pairs).map f := by
  rw [interiorPairs, interiorPairs, ← List.map_drop, List.map_dropLast]

/-- The bit test is only asked of a space of at most 3000, which the cut leaves alone; so the threshold may be
cut too. -/
theorem classifyBits_map_min (hM : artifactMin < M) (threshold : Nat) (pairs : List (Nat × Nat)) :
    classifyBits (min threshold M) (pairs.map (Prod.map (min · M) (min · M))) =
      classifyBits threshold pairs := by
  induction pairs with
  | nil => rfl
  | cons pair pairs ih =>
    obtain ⟨mark, space⟩ := pair
    rw [List.map_cons, Prod.map_apply, classifyBits, classifyBits, ih]
    refine if_ctx_congr (by rw [lt_min_iff, and_iff_left hM]) (fun _ => rfl) fun hspace => ?_
    have hbit : min threshold M < min space M ↔ threshold < space := by omega
    simp only [hbit]

theorem decodeFrame_map_min (hM : artifactMin < M) (odd : OddTail) (frame : List Nat) (threshold : Nat) :
    decodeFrame odd (frame.map (min · M)) (min threshold M) = decodeFrame odd frame threshold := by
  simp only [decodeFrame, dropPlaceholder_map_min (Nat.zero_lt_of_lt hM), pairUp_map,
    interiorPairs_map, classifyBits_map_min hM, List.length_map, oddTailFails]

theorem decodedBytes_map_min (hM : gapMin < M) (odd : OddTail) (threshold : Nat) (train : List Nat) :
    decodedBytes odd (min threshold M) (train.map (min · M)) = decodedBytes odd threshold train := by
  have hartifact : artifactMin < M := Nat.lt_trans (by decide) hM
  rw [decodedBytes, segmentFrames_map_min hM, List.filterMap_map, decodedBytes]
  exact congrArg (List.filterMap · _) (funext fun frame => decodeFrame_map_min hartifact odd frame threshold)

end

/-- The largest duration of a realisation with 13 or more bits is above every constant. -/
theorem gapMin_lt_largest_duration {w : Nat} (h : 13 ≤ w) : gapMin < 2 ^ w - 1 := by
  have hpow : 2 ^ 13 ≤ 2 ^ w := Nat.pow_le_pow_right (by decide) h
  unfold gapMin
  omega

theorem parseTokens_saturated (p : Params) (w : Nat) (toks : List (List Byte)) :
    parseTokens { p with durW := some w } toks =
      (parseTokens { p with durW := none } toks).map (List.map (min · (2 ^ w - 1))) := by
  by_cases h : ∀ tok ∈ toks, ∀ ch ∈ tok, isDigit ch = true
  · rw [parseTokens_ok _ _ h, parseTokens_ok _ _ h, Except.map, List.map_map]
    rfl
  · push Not at h
    obtain ⟨tok, htok, ch, hch, hdigit⟩ := h
    have hdigit := Bool.eq_false_iff.mpr hdigit
    rw [parseTokens_error _ _ htok hch hdigit, parseTokens_error _ _ htok hch hdigit, Except.map]

theorem parse_saturated (p : Params) (w : Nat) (raw : List Byte) :
    parse { p with durW := some w } raw =
      (parse { p with durW := none } raw).map (List.map (min · (2 ^ w - 1))) :=
  parseTokens_saturated p w _

/-- The default threshold is below the largest duration, so the cut leaves it alone. -/
theorem effectiveThreshold_saturated (p : Params) {w : Nat} (h : 13 ≤ w) (threshold : Option Nat) :
    effectiveThreshold { p with durW := some w } threshold =
      min (effectiveThreshold { p with durW := none } threshold) (2 ^ w - 1) := by
  cases threshold with
  | some t => rfl
  | none =>
    have hdefault : threshDefault < 2 ^ w - 1 :=
      Nat.lt_trans (by decide) (gapMin_lt_largest_duration h)
    exact (min_eq_left hdefault.le).symm

theorem decodePulseTrain_saturated (p : Params) {w : Nat} (h : 13 ≤ w) (threshold : Option Nat)
    (raw : List Byte) :
    decodePulseTrain { p with durW := some w } threshold raw =
      decodePulseTrain { p with durW := none } threshold raw := by
  rw [decodePulseTrain, decodePulseTrain, parse_saturated, effectiveThreshold_saturated p h]
  cases parse { p with durW := none } raw with
  | error e => rfl
  | ok train => simp only [Except.map, decodedBytes_map_min (gapMin_lt_largest_duration h)]

/-- What PTD leaves in unit PD when its answer is no refusal. -/
def pdOutcome : Except ErrKind (Byte × List Byte) → PdRegs
  | .error e => pdFailed e
  | .ok (canonical, decoded) => pdResult canonical decoded

/-- With an unbounded NFRAMES, PTD is one write of what decodePulseTrain gives. -/
theorem exec_ptd_of_unbounded {s : State} (h : s.params.nfrW = none) (threshold : Option Nat)
    (raw : List Byte) :
    exec (.ptd threshold raw) s =
      .next (writePd (pdOutcome (decodePulseTrain s.params threshold raw)) s) := by
  rcases execPtd_cases threshold raw s with
    ⟨e, _, hdecode, hexec⟩ | ⟨b, others, hdecode, _, hexec⟩ | ⟨_, _, _, hfits, _⟩
  · rw [hdecode]
    exact hexec
  · rw [hdecode]
    exact hexec
  · rw [countFits_of_unbounded h] at hfits
    cases hfits

/-- Settles O58: every test gives the same answer on the cut train, so PTD writes the same registers. -/
theorem saturationChangesNothing : Obligations.SaturationChangesNothing := by
  intro threshold raw s w hw
  have hdecode := decodePulseTrain_saturated s.params hw threshold raw
  refine ⟨hdecode, fun hnfr => ?_, fun train htrain => ?_⟩
  · have hexec (durW : Option Nat) := exec_ptd_of_unbounded
      (s := { s with params := { s.params with durW := durW } }) hnfr threshold raw
    exact ⟨_, _, hexec none, hexec (some w), congrArg pdOutcome hdecode, rfl⟩
  · rw [parse_saturated, htrain, Except.map]

end Sys2Proof.Machine
end

section
/-! Proofs of the statements of 42_pulse_frame_decode.md: the dropped placeholder (R151), and the bits of the
decoded byte (R156, R158). -/

namespace Sys2Proof.Machine

/-! ### The placeholder and the unread header mark (R151, R154) -/

@[simp] theorem dropPlaceholder_zero_cons (frame : List Nat) : dropPlaceholder (0 :: frame) = frame := rfl

theorem dropPlaceholder_cons_of_ne_zero {mark : Nat} (h : mark ≠ 0) (frame : List Nat) :
    dropPlaceholder (mark :: frame) = mark :: frame := by
  rw [dropPlaceholder_eq, pulsesOf, List.head?_cons, if_neg (by simpa using h)]

/-- decodeFrame sees of a frame only how many pulses the placeholder drop leaves, and their interior pairs. -/
theorem decodeFrame_congr {f g : List Nat} (hlength : (dropPlaceholder f).length = (dropPlaceholder g).length)
    (hinterior : interiorPairs (pairUp (dropPlaceholder f)) = interiorPairs (pairUp (dropPlaceholder g)))
    (odd : OddTail) (threshold : Nat) : decodeFrame odd f threshold = decodeFrame odd g threshold := by
  simp only [decodeFrame, oddTailFails, pairUp_length, hlength, hinterior]

theorem decodeFrame_congr_dropPlaceholder {f g : List Nat} (h : dropPlaceholder f = dropPlaceholder g)
    (odd : OddTail) (threshold : Nat) : decodeFrame odd f threshold = decodeFrame odd g threshold :=
  decodeFrame_congr (by rw [h]) (by rw [h]) odd threshold

/-- The header mark is in no interior pair. -/
theorem interiorPairs_pairUp_cons (mark mark' : Nat) (rest : List Nat) :
    interiorPairs (pairUp (mark :: rest)) = interiorPairs (pairUp (mark' :: rest)) := by
  cases rest with
  | nil => rfl
  | cons space rest => rfl

/-- Settles O48: of two leading zeros the second becomes the header mark, whose value is in no interior pair. -/
theorem placeholderDroppedOnce : Obligations.PlaceholderDroppedOnce := by
  intro odd frame threshold mark hmark
  have hstays := dropPlaceholder_cons_of_ne_zero hmark frame
  have hdropped := (dropPlaceholder_zero_cons (mark :: frame)).trans hstays.symm
  refine ⟨decodeFrame_congr_dropPlaceholder hdropped odd threshold, ?_,
    decodeFrame_congr_dropPlaceholder rfl odd threshold, hstays, dropPlaceholder_zero_cons _⟩
  apply decodeFrame_congr
  · rw [hstays, dropPlaceholder_zero_cons, List.length_cons, List.length_cons]
  · rw [hstays]
    exact interiorPairs_pairUp_cons 0 mark frame

/-! ### The bits of the byte (R156, R158) -/

/-- Bit `k` of the walk over the interior pairs is the test of the space of pair `k + 1`. -/
theorem classifyBits_interiorPairs_getElem? {threshold k : Nat} {pulses : List Nat}
    (h : k < (classifyBits threshold (interiorPairs (pairUp pulses))).length) :
    (classifyBits threshold (interiorPairs (pairUp pulses)))[k]? =
      some (decide (threshold < spaceAt pulses (k + 1))) := by
  obtain ⟨pair, hpair, hbit⟩ := classifyBits_getElem? threshold _ k h
  have hk : k < pulses.length / 2 - 2 := by
    rw [← pairUp_length, ← interiorPairs_length]
    exact (List.getElem?_eq_some_iff.mp hpair).1
  rw [interiorPairs_getElem? _ k (by rwa [pairUp_length]), pairUp_getElem? pulses (k + 1) (by omega),
    Option.some.injEq] at hpair
  rw [hbit, ← hpair]

theorem decodeFrame_getLsbD {odd : OddTail} {frame : List Nat} {threshold : Nat} {b : Byte}
    (h : decodeFrame odd frame threshold = some b) {k : Nat} (hk : k < 8) :
    b.getLsbD k = decide (threshold < spaceAt (pulsesOf frame) (k + 1)) := by
  obtain ⟨_, _, hlength, rfl⟩ := (decodeFrame_eq_some_iff odd frame threshold b).mp h
  rw [BitVec.getLsbD_ofNat, bitsValue_testBit,
    classifyBits_interiorPairs_getElem? (hlength.symm ▸ hk), Option.getD_some, decide_eq_true hk, Bool.true_and]

/-- The low `w` bits of a number are the sum of its bits, each at its weight. -/
theorem mod_two_pow_eq_sum_testBit (n w : Nat) :
    n % 2 ^ w = ((List.range w).map (fun k => (n.testBit k).toNat * 2 ^ k)).sum := by
  induction w with
  | zero => rw [pow_zero, Nat.mod_one, List.range_zero, List.map_nil, List.sum_nil]
  | succ w ih => rw [Nat.mod_pow_succ, ih, List.sum_range_succ, Nat.toNat_testBit, Nat.mul_comm (2 ^ w)]

theorem toNat_eq_sum_getLsbD {w : Nat} (x : BitVec w) :
    x.toNat = ((List.range w).map (fun k => (x.getLsbD k).toNat * 2 ^ k)).sum :=
  (Nat.mod_eq_of_lt x.isLt).symm.trans (mod_two_pow_eq_sum_testBit x.toNat w)

/-- Settles O47: the walk gives bit `k` of the byte at pair `k + 1`, and a byte is the sum of its weighted
bits. -/
theorem frameByteBits : Obligations.FrameByteBits := by
  refine ⟨fun odd frame threshold b h => ⟨fun k hk => decodeFrame_getLsbD h hk, ?_⟩, by decide⟩
  rw [toNat_eq_sum_getLsbD b]
  refine congrArg List.sum (List.map_congr_left fun k hk => ?_)
  rw [decodeFrame_getLsbD h (List.mem_range.mp hk), Bool.toNat, Bool.cond_decide]

end Sys2Proof.Machine
end

section
/-! Proofs of the statements of 43_pulse_train_decode.md: the result registers of a PTD that succeeds (R173,
R174, R178), and the tables of channels and commands (R175, R176). -/

namespace Sys2Proof.Machine

/-! ### The two bit fields of the byte, as numbers (30_encoding.md R82) -/

/-- Two bits of a byte above bit `i`, cut out by a shift and a mask, are its quotient modulo 4. -/
theorem shiftRight_and_three_toNat (b : Byte) (i : Nat) :
    ((b >>> i) &&& 0b11).toNat = b.toNat / 2 ^ i % 4 := by
  rw [BitVec.toNat_and, BitVec.toNat_ushiftRight, Nat.shiftRight_eq_div_pow]
  exact Nat.and_two_pow_sub_one_eq_mod _ 2

theorem channelBits_eq (b : Byte) : channelBits b = b.toNat / 8 % 4 := shiftRight_and_three_toNat b 3

theorem commandBits_eq (b : Byte) : commandBits b = b.toNat / 32 % 4 := shiftRight_and_three_toNat b 5

theorem channelBits_lt (b : Byte) : channelBits b < 4 := by
  rw [channelBits_eq]
  exact Nat.mod_lt _ (by decide)

theorem commandBits_lt (b : Byte) : commandBits b < 4 := by
  rw [commandBits_eq]
  exact Nat.mod_lt _ (by decide)

/-! ### MATCH (R174) -/

theorem framesMatch_eq_one_iff (canonical : Byte) (decoded : List Byte) :
    framesMatch canonical decoded = 1 ↔ ∀ x ∈ decoded, x = canonical := by
  simp [framesMatch]

/-- The canonical byte is equal to itself, so only the bytes after it count. -/
theorem framesMatch_cons_self_eq_one_iff (b : Byte) (others : List Byte) :
    framesMatch b (b :: others) = 1 ↔ ∀ x ∈ others, x = b := by
  rw [framesMatch_eq_one_iff, List.forall_mem_cons, and_iff_right rfl]

theorem framesMatch_eq_zero_iff (canonical : Byte) (decoded : List Byte) :
    framesMatch canonical decoded = 0 ↔ ∃ x ∈ decoded, x ≠ canonical := by
  simp [framesMatch]

theorem framesMatch_cons_self_eq_zero_iff (b : Byte) (others : List Byte) :
    framesMatch b (b :: others) = 0 ↔ ∃ x ∈ others, x ≠ b := by
  rw [framesMatch_eq_zero_iff, List.exists_mem_cons_iff, or_iff_right (fun h => h rfl)]

/-! ### A PTD that succeeds (R173, R178) -/

theorem countFits_iff (p : Params) (n : Nat) :
    countFits p n = true ↔ ∀ w, p.nfrW = some w → n < 2 ^ w := by
  simp [countFits, Option.all_eq_true]

theorem effectiveThreshold_eq_elim (p : Params) (threshold : Option Nat) :
    effectiveThreshold p threshold = threshold.elim 700 (saturate p) := by
  cases threshold <;> rfl

/-- Settles O52: the count fits, so PTD is one write of `pdResult`, and each clause is a register of it. -/
theorem ptdSuccessResult : Obligations.PtdSuccessResult := by
  intro threshold raw s train b others hparse hbytes hwidth
  rw [← effectiveThreshold_eq_elim] at hbytes
  have hexec : execPtd threshold raw s = .next (writePd (pdResult b (b :: others)) s) := by
    rw [execPtd_eq_of_decodedBytes hparse hbytes]
    exact if_pos ((countFits_iff _ _).mpr hwidth)
  refine ⟨_, hexec, rfl, ?_, ?_, rfl, framesMatch_cons_self_eq_one_iff b others,
    framesMatch_cons_self_eq_zero_iff b others, rfl, rfl, pdOk_pdResult b _, rfl, rfl, rfl⟩
  · rw [← channelBits_eq]
    rfl
  · rw [← commandBits_eq]
    rfl

/-! ### The tables (R175, R176) -/

theorem chanCode_channelOf {n : Nat} (h : n < 4) : chanCode (channelOf n) =
    (if n = 0 then 4 else if n = 1 then 1 else if n = 2 then 3 else 2) := by
  interval_cases n <;> rfl

theorem cmdCode_commandOf {n : Nat} (h : n < 4) : cmdCode (commandOf n) =
    (if n = 0 then 1 else if n = 1 then 4 else if n = 2 then 3 else 2) := by
  interval_cases n <;> rfl

theorem channelOf_eq_unknown_iff (n : Nat) : channelOf n = .unknown ↔ 4 ≤ n := by
  rcases n with _ | _ | _ | _ | n <;> simp [channelOf]

/-- A PTD that is not refused leaves in unit PD the registers of a failure or of a success. -/
theorem exec_ptd_next_pd {threshold : Option Nat} {raw : List Byte} {s t : State}
    (h : exec (.ptd threshold raw) s = .next t) :
    (∃ e, t.pd = pdFailed e) ∨ ∃ b decoded, t.pd = pdResult b decoded := by
  rcases execPtd_cases threshold raw s with
    ⟨e, _, _, hexec⟩ | ⟨b, others, _, _, hexec⟩ | ⟨_, _, _, _, hexec⟩
  · cases hexec.symm.trans h
    exact .inl ⟨e, rfl⟩
  · cases hexec.symm.trans h
    exact .inr ⟨b, b :: others, rfl⟩
  · cases hexec.symm.trans h

/-- Settles O53: each table over the four values of its two bits, and a failed PTD has CMDK 0, never 4. -/
theorem channelAndCommandTables : Obligations.ChannelAndCommandTables := by
  refine ⟨fun b => ?_, fun b => ?_, fun b => ?_, fun n => (channelOf_eq_unknown_iff n).mpr,
    fun threshold raw s t hexec hcmdk => ?_⟩
  · rw [← channelBits_eq]
    exact chanCode_channelOf (channelBits_lt b)
  · rw [← commandBits_eq]
    exact cmdCode_commandOf (commandBits_lt b)
  · rw [Ne, channelOf_eq_unknown_iff, not_le]
    exact channelBits_lt b
  · rcases exec_ptd_next_pd hexec with ⟨e, hpd⟩ | ⟨b, decoded, hpd⟩
    · rw [hpd] at hcmdk
      cases hcmdk
    · rw [hpd]
      exact ⟨rfl, pdOk_pdResult b decoded⟩

end Sys2Proof.Machine
end

section
/-! Proofs of the statements of 60_exceptions.md: the cause of each error kind (R191 to R195), what a failing
operation writes (R196), and the requests that are refused (R204). -/

namespace Sys2Proof.Machine

/-! ### The codes (R190) -/

theorem errCode_inj {e e' : ErrKind} : errCode e = errCode e' ↔ e = e' := by
  cases e <;> cases e' <;> decide

theorem errCode_ne_zero (e : ErrKind) : errCode e ≠ 0 := by
  cases e <;> decide

/-! ### What a failing operation writes (R196) -/

theorem exec_dec_of_error {txt : List Byte} {e : ErrKind} (h : decodeTelegram txt = .error e) (s : State) :
    exec (.dec txt) s = .next (writeTc (tcFailed e) s) := by
  rcases execDec_cases txt s with ⟨e', _, hdecode, hexec⟩ | ⟨b, hdecode, _⟩
  · cases hdecode.symm.trans h
    exact hexec
  · cases hdecode.symm.trans h

theorem exec_ptd_of_error {threshold : Option Nat} {raw : List Byte} {s : State} {e : ErrKind}
    (h : decodePulseTrain s.params threshold raw = .error e) :
    exec (.ptd threshold raw) s = .next (writePd (pdFailed e) s) := by
  rcases execPtd_cases threshold raw s with
    ⟨e', _, hdecode, hexec⟩ | ⟨b, others, hdecode, _⟩ | ⟨b, others, hdecode, _⟩
  · cases hdecode.symm.trans h
    exact hexec
  · cases hdecode.symm.trans h
  · cases hdecode.symm.trans h

/-- Settles O32: a failure is one write of its unit, and each clause is a field of the state after it. -/
theorem failureZeroesUnit : Obligations.FailureZeroesUnit := by
  refine ⟨fun txt s e h => ?_, fun threshold raw s e h => ?_⟩
  · exact ⟨_, exec_dec_of_error h s, rfl, rfl, rfl, rfl, rfl, rfl⟩
  · exact ⟨_, exec_ptd_of_error h, rfl, rfl, rfl, rfl, rfl, rfl, rfl, rfl, rfl, rfl⟩

/-! ### TC_ERR and PD_ERR tell the error kind

A success writes 0, which is no code, and no two error kinds share a code. -/

theorem exec_dec_err_eq_errCode_iff (txt : List Byte) (s : State) (e : ErrKind) :
    ∃ t, exec (.dec txt) s = .next t ∧ (t.tc.err = errCode e ↔ decodeTelegram txt = .error e) := by
  rcases execDec_cases txt s with ⟨e', _, hdecode, hexec⟩ | ⟨b, hdecode, _, _, hexec⟩
  · refine ⟨_, hexec, ?_⟩
    rw [hdecode, Except.error.injEq]
    exact errCode_inj
  · refine ⟨_, hexec, ?_⟩
    rw [hdecode]
    exact iff_of_false (errCode_ne_zero e).symm (by simp)

theorem decodePulseTrain_eq_error_of_err {threshold : Option Nat} {raw : List Byte} {s t : State}
    {e : ErrKind} (hexec : exec (.ptd threshold raw) s = .next t) (herr : t.pd.err = errCode e) :
    decodePulseTrain s.params threshold raw = .error e := by
  rcases execPtd_cases threshold raw s with
    ⟨e', _, hdecode, hfailed⟩ | ⟨b, others, _, _, hresult⟩ | ⟨b, others, _, _, hrefused⟩
  · cases hfailed.symm.trans hexec
    rw [hdecode, errCode_inj.mp herr]
  · cases hresult.symm.trans hexec
    exact absurd herr.symm (errCode_ne_zero e)
  · cases hrefused.symm.trans hexec

/-- PTD reports `e` exactly when decodePulseTrain does, read in the two directions: a count that NFR_W bits
cannot hold leaves no next state to read PD_ERR of. -/
theorem exec_ptd_err_iff_of_decodePulseTrain_iff {threshold : Option Nat} {raw : List Byte} {s : State}
    {e : ErrKind} {cause : Prop} (h : decodePulseTrain s.params threshold raw = .error e ↔ cause) :
    (cause → ∃ t, exec (.ptd threshold raw) s = .next t ∧ t.pd.err = errCode e) ∧
    (∀ t, exec (.ptd threshold raw) s = .next t → t.pd.err = errCode e → cause) :=
  ⟨fun hcause => ⟨_, exec_ptd_of_error (h.mpr hcause), rfl⟩,
    fun _ hexec herr => h.mp (decodePulseTrain_eq_error_of_err hexec herr)⟩

/-! ### The structure check is the grammar (R191) -/

/-- A text is an optional mark and its digit string. -/
theorem exists_mark_append_digitString (txt : List Byte) :
    ∃ mark ∈ hexMarks, txt = mark ++ digitString txt := by
  rcases digitString_cases txt with ⟨htxt, _⟩ | ⟨htxt, _⟩ | ⟨htxt, _⟩
  · exact ⟨[0x30, 0x78], by decide, htxt⟩
  · exact ⟨[0x30, 0x58], by decide, htxt⟩
  · exact ⟨[], by decide, htxt⟩

theorem digitString_length_of_telegramFields {txt : List Byte} {b : TelegramBytes}
    (h : telegramFields txt = some b) : (digitString txt).length = 7 ∨ (digitString txt).length = 8 := by
  unfold telegramFields at h
  split at h
  · exact .inr (hexDigits_length ‹_›).symm
  · exact .inl (hexDigits_length ‹_›).symm
  · cases h

theorem telegramText_of_telegramFields {txt : List Byte} {b : TelegramBytes}
    (h : telegramFields txt = some b) : TelegramText txt (digitString txt) := by
  refine ⟨exists_mark_append_digitString txt, digitString_length_of_telegramFields h, fun ch hmem => ?_⟩
  by_contra hhex
  rw [telegramFields_eq_none hmem (Bool.eq_false_iff.mpr hhex)] at h
  cases h

theorem telegramFields_eq_none_iff (txt : List Byte) :
    telegramFields txt = none ↔ ¬ ∃ ds, TelegramText txt ds := by
  constructor
  · rintro hnone ⟨ds, htext⟩
    rw [telegramFields_of_telegramText htext] at hnone
    cases hnone
  · intro hno
    rw [Option.eq_none_iff_forall_ne_some]
    exact fun b hfields => hno ⟨_, telegramText_of_telegramFields hfields⟩

/-! ### The two inverse checks on the digits (R192, R193) -/

theorem lastGroup_lt (ds : List Byte) : lastGroup ds < 256 := by
  have hdigit := digitAt_lt ds 6
  have hgroup := groupAt_lt ds 6
  unfold lastGroup
  split <;> omega

theorem ofNat_eq_inv8_iff {n m : Nat} (hn : n < 256) (hm : m < 256) :
    BitVec.ofNat 8 n = inv8 (BitVec.ofNat 8 m) ↔ n = 255 - m := by
  refine ⟨fun h => ?_, ofNat_eq_inv8 hm⟩
  have hnat := congrArg BitVec.toNat h
  rw [inv8_toNat, BitVec.toNat_ofNat, BitVec.toNat_ofNat] at hnat
  omega

theorem bytesOfDigits_addrInv_eq_iff (ds : List Byte) :
    (bytesOfDigits ds).addrInv = inv8 (bytesOfDigits ds).addr ↔ groupAt ds 2 = 255 - groupAt ds 0 :=
  ofNat_eq_inv8_iff (groupAt_lt ds 2) (groupAt_lt ds 0)

theorem bytesOfDigits_cmdInv_eq_iff (ds : List Byte) :
    (bytesOfDigits ds).cmdInv = inv8 (bytesOfDigits ds).cmd ↔ lastGroup ds = 255 - groupAt ds 4 :=
  ofNat_eq_inv8_iff (lastGroup_lt ds) (groupAt_lt ds 4)

/-- What DEC makes of the digit string of a text of the grammar: the address check, then the command check. -/
def checkDigits (ds : List Byte) : Except ErrKind TelegramBytes :=
  if groupAt ds 2 ≠ 255 - groupAt ds 0 then .error .addressInverseMismatch
  else if lastGroup ds ≠ 255 - groupAt ds 4 then .error .commandInverseMismatch
  else .ok (bytesOfDigits ds)

theorem checkDigits_eq_addressInverseMismatch_iff (ds : List Byte) :
    checkDigits ds = .error .addressInverseMismatch ↔ groupAt ds 2 ≠ 255 - groupAt ds 0 := by
  unfold checkDigits
  split_ifs <;> simp_all

theorem checkDigits_eq_commandInverseMismatch_iff (ds : List Byte) :
    checkDigits ds = .error .commandInverseMismatch ↔
      groupAt ds 2 = 255 - groupAt ds 0 ∧ lastGroup ds ≠ 255 - groupAt ds 4 := by
  unfold checkDigits
  split_ifs <;> simp_all

theorem checkDigits_ne_malformedTelegram (ds : List Byte) :
    checkDigits ds ≠ .error .malformedTelegram := by
  unfold checkDigits
  split_ifs <;> simp

theorem decodeTelegram_of_telegramText {txt ds : List Byte} (h : TelegramText txt ds) :
    decodeTelegram txt = checkDigits ds := by
  simp only [decodeTelegram, checkDigits, telegramFields_of_telegramText h, ne_eq,
    bytesOfDigits_addrInv_eq_iff, bytesOfDigits_cmdInv_eq_iff]

theorem decodeTelegram_of_no_telegramText {txt : List Byte} (h : ¬ ∃ ds, TelegramText txt ds) :
    decodeTelegram txt = .error .malformedTelegram := by
  rw [decodeTelegram, (telegramFields_eq_none_iff txt).mpr h]

theorem decodeTelegram_eq_malformedTelegram_iff (txt : List Byte) :
    decodeTelegram txt = .error .malformedTelegram ↔ ¬ ∃ ds, TelegramText txt ds := by
  refine ⟨?_, decodeTelegram_of_no_telegramText⟩
  rintro hdecode ⟨ds, htext⟩
  rw [decodeTelegram_of_telegramText htext] at hdecode
  exact checkDigits_ne_malformedTelegram ds hdecode

/-- Every other error kind of DEC comes from the checks on the digits. -/
theorem decodeTelegram_eq_error_iff {e : ErrKind} (he : e ≠ .malformedTelegram) (txt : List Byte) :
    decodeTelegram txt = .error e ↔ ∃ ds, TelegramText txt ds ∧ checkDigits ds = .error e := by
  constructor
  · intro hdecode
    by_cases hgrammar : ∃ ds, TelegramText txt ds
    · obtain ⟨ds, htext⟩ := hgrammar
      exact ⟨ds, htext, decodeTelegram_of_telegramText htext ▸ hdecode⟩
    · rw [decodeTelegram_of_no_telegramText hgrammar, Except.error.injEq] at hdecode
      exact absurd hdecode.symm he
  · rintro ⟨ds, htext, hcheck⟩
    exact (decodeTelegram_of_telegramText htext).trans hcheck

/-- Settles O28: the structure check passes exactly on the grammar, and the later checks report other kinds. -/
theorem decMalformedExactly : Obligations.DecMalformedExactly := by
  intro txt s
  rw [← decodeTelegram_eq_malformedTelegram_iff]
  exact exec_dec_err_eq_errCode_iff txt s .malformedTelegram

/-- Settles O29: the first check on the digits of a text of the grammar. -/
theorem decAddressMismatchExactly : Obligations.DecAddressMismatchExactly := by
  intro txt s
  simp only [← checkDigits_eq_addressInverseMismatch_iff]
  rw [← decodeTelegram_eq_error_iff (by decide)]
  exact exec_dec_err_eq_errCode_iff txt s .addressInverseMismatch

/-- Settles O30: the second check on the digits, which is reached only when the first one passes. -/
theorem decCommandMismatchExactly : Obligations.DecCommandMismatchExactly := by
  intro txt s
  simp only [← checkDigits_eq_commandInverseMismatch_iff]
  rw [← decodeTelegram_eq_error_iff (by decide)]
  exact exec_dec_err_eq_errCode_iff txt s .commandInverseMismatch

/-! ### MalformedPulseToken (R194) -/

theorem parseTokens_eq_error_iff (p : Params) (toks : List (List Byte)) :
    parseTokens p toks = .error .malformedPulseToken ↔ ∃ tok ∈ toks, ∃ ch ∈ tok, isDigit ch = false := by
  constructor
  · intro herror
    by_contra hno
    have hdigits : ∀ tok ∈ toks, ∀ ch ∈ tok, isDigit ch = true := by simpa using hno
    rw [parseTokens_ok p toks hdigits] at herror
    cases herror
  · rintro ⟨tok, htok, ch, hch, hdigit⟩
    exact parseTokens_error p toks htok hch hdigit

/-- What white space and commas leave of a raw string are the characters of its tokens. -/
theorem parse_eq_error_iff (p : Params) (raw : List Byte) :
    parse p raw = .error .malformedPulseToken ↔
      ∃ ch ∈ raw, isWhitespace p ch = false ∧ ch ≠ comma ∧ isDigit ch = false := by
  have hmem (ch : Byte) := mem_splitCommas (raw.filter (fun ch => !isWhitespace p ch)) ch
  rw [parse, parseTokens_eq_error_iff]
  constructor
  · rintro ⟨tok, htok, ch, hch, hdigit⟩
    obtain ⟨hkept, hcomma⟩ := (hmem ch).mp ⟨tok, htok, hch⟩
    obtain ⟨hraw, hspace⟩ := List.mem_filter.mp hkept
    exact ⟨ch, hraw, by simpa using hspace, hcomma, hdigit⟩
  · rintro ⟨ch, hraw, hspace, hcomma, hdigit⟩
    have hkept : ch ∈ raw.filter (fun ch => !isWhitespace p ch) :=
      List.mem_filter.mpr ⟨hraw, by simpa using hspace⟩
    obtain ⟨tok, htok, hch⟩ := (hmem ch).mpr ⟨hkept, hcomma⟩
    exact ⟨tok, htok, ch, hch, hdigit⟩

theorem decodePulseTrain_eq_malformedPulseToken_iff (p : Params) (threshold : Option Nat)
    (raw : List Byte) : decodePulseTrain p threshold raw = .error .malformedPulseToken ↔
      parse p raw = .error .malformedPulseToken := by
  unfold decodePulseTrain
  cases parse p raw with
  | error e => simp
  | ok train =>
    cases hbytes : decodedBytes p.oddTail (effectiveThreshold p threshold) train <;> simp [hbytes]

/-- Settles O40: the error kind of PTD is that of parse, which reads every character white space and commas
leave. -/
theorem malformedTokenExactly : Obligations.MalformedTokenExactly := by
  intro threshold raw s
  exact exec_ptd_err_iff_of_decodePulseTrain_iff
    ((decodePulseTrain_eq_malformedPulseToken_iff s.params threshold raw).trans
      (parse_eq_error_iff s.params raw))

/-! ### NoDecodableFrames (R195) -/

theorem decodedBytes_eq_nil_iff (odd : OddTail) (threshold : Nat) (train : List Nat) :
    decodedBytes odd threshold train = [] ↔
      ∀ f ∈ segmentFrames train, decodeFrame odd f threshold = none :=
  List.filterMap_eq_nil_iff

theorem decodePulseTrain_eq_noDecodableFrames_iff (p : Params) (threshold : Option Nat)
    (raw : List Byte) : decodePulseTrain p threshold raw = .error .noDecodableFrames ↔
      ∃ train, parse p raw = .ok train ∧
        decodedBytes p.oddTail (effectiveThreshold p threshold) train = [] := by
  unfold decodePulseTrain
  cases hparse : parse p raw with
  | error e => simp [parse_error hparse]
  | ok train =>
    cases hbytes : decodedBytes p.oddTail (effectiveThreshold p threshold) train <;> simp [hbytes]

/-- Settles O55: PTD reports it exactly when the list of the decoded bytes is empty. -/
theorem noDecodableFramesExactly : Obligations.NoDecodableFramesExactly := by
  intro threshold raw s
  simp only [← decodedBytes_eq_nil_iff]
  exact exec_ptd_err_iff_of_decodePulseTrain_iff
    (decodePulseTrain_eq_noDecodableFrames_iff s.params threshold raw)

/-! ### The refused requests (R204) -/

theorem violation_dec_of_lt {p : Params} {m : Nat} {txt : List Byte} (hmax : p.txtMax = some m)
    (hlong : m < txt.length) : (Instr.dec txt).violation p = some .textTooLong := by
  simp [Instr.violation, hmax, hlong]

theorem violation_ptd_of_lt {p : Params} {m : Nat} {raw : List Byte} (hmax : p.rawMax = some m)
    (hlong : m < raw.length) (threshold : Option Nat) :
    (Instr.ptd threshold raw).violation p = some .rawTooLong := by
  simp [Instr.violation, hmax, hlong]

/-- A request that breaks a bound of the realisation has no step (20_memory.md R52). -/
theorem step_eq_refused_of_violation {s : State} {i : Instr} {rest : List HostEvent}
    {why : BoundViolation} (hport : s.port = .request (encode i) :: rest)
    (hviolation : i.violation s.params = some why) : step s = .refused (.outOfBounds why) := by
  simp only [step, hport, acceptRequest, decode_encode, hviolation]

/-- Settles O23: the decoder rejects the first request, and the other two break a bound. -/
theorem refusedRequests : Obligations.RefusedRequests := by
  refine ⟨fun s r rest hport hreserved => ?_, fun s rest txt m hport hmax hlong => ?_,
    fun s rest threshold raw m hport hmax hlong => ?_⟩
  · exact step_eq_refused_of_decode_error hport
      (decode_of_formatOf_eq_none ((formatOf_eq_none_iff r.opsel).mpr hreserved))
  · exact step_eq_refused_of_violation hport (violation_dec_of_lt hmax hlong)
  · exact step_eq_refused_of_violation hport (violation_ptd_of_lt hmax hlong threshold)

end Sys2Proof.Machine
end

section
/-! Proofs about operations and steps from every state: the frame (10_state.md section 7), operations that
overwrite and commute (70_reset_and_hazards.md R224, 20_memory.md R61), the invariant (10_state.md R36), the
reset event (70_reset_and_hazards.md R220), and the status words (10_state.md R32). -/

namespace Sys2Proof.Machine

/-! ### The frame (10_state.md section 7) -/

/-- A next state of an operation is one write of the operation's own unit. -/
theorem exec_next_write {i : Instr} {s t : State} (h : exec i s = .next t) :
    (∃ r, isTcOp i = true ∧ t = writeTc r s) ∨ (∃ r, isTcOp i = false ∧ t = writePd r s) := by
  rcases exec_one_write i s.params with ⟨r, hunit, hwrite⟩ | ⟨r, hunit, hwrite⟩ | ⟨why, _, hrefuse⟩
  · cases (hwrite s rfl).symm.trans h
    exact .inl ⟨r, hunit, rfl⟩
  · cases (hwrite s rfl).symm.trans h
    exact .inr ⟨r, hunit, rfl⟩
  · cases (hrefuse s rfl).symm.trans h

/-- Settles O9: a write of one unit leaves the other unit and the model's own fields as they are. -/
theorem operationFrame : Obligations.OperationFrame := by
  intro i s t hexec
  rcases exec_next_write hexec with ⟨r, hunit, rfl⟩ | ⟨r, hunit, rfl⟩ <;> simp [hunit]

/-- Settles O17: waiting finds the port empty, reset and a request are taken off it, and the operation of the
request leaves the port alone. -/
theorem stepConsumesOneEvent : Obligations.StepConsumesOneEvent := by
  intro s t hstep
  rcases step_next_cases hstep with ⟨hport, rfl⟩ | ⟨rest, _, rfl⟩ | ⟨r, rest, i, _, _, _, hexec⟩
  · exact ⟨rfl, by rw [hport, List.tail_nil]⟩
  · exact ⟨rfl, rfl⟩
  · obtain ⟨hport, hparams, _⟩ := operationFrame i (popEvent s) t hexec
    exact ⟨hparams, hport⟩

/-! ### Overwriting and commuting (70_reset_and_hazards.md R224, 20_memory.md R61) -/

/-- An operation of unit TC gives the same state whatever stood in the registers of unit TC. -/
theorem exec_writeTc {i : Instr} (hunit : isTcOp i = true) (r : TcRegs) (s : State) :
    exec i (writeTc r s) = exec i s := by
  rcases exec_one_write i s.params with ⟨q, _, hwrite⟩ | ⟨_, hpd, _⟩ | ⟨_, hpd, _⟩
  · rw [hwrite s rfl, hwrite (writeTc r s) rfl, writeTc_writeTc]
  · exact absurd hpd (by simp [hunit])
  · exact absurd hpd (by simp [hunit])

/-- An operation of unit PD gives the same outcome whatever stood in the registers of unit PD. -/
theorem exec_writePd {i : Instr} (hunit : isTcOp i = false) (r : PdRegs) (s : State) :
    exec i (writePd r s) = exec i s := by
  rcases exec_one_write i s.params with ⟨_, htc, _⟩ | ⟨q, _, hwrite⟩ | ⟨why, _, hrefuse⟩
  · exact absurd htc (by simp [hunit])
  · rw [hwrite s rfl, hwrite (writePd r s) rfl, writePd_writePd]
  · rw [hrefuse s rfl, hrefuse (writePd r s) rfl]

/-- Settles O13: the earlier operation left no more than a write of the unit. -/
theorem laterOperationOverwritesUnit : Obligations.LaterOperationOverwritesUnit := by
  intro i j s t hsame hexec
  rcases exec_next_write hexec with ⟨r, hunit, rfl⟩ | ⟨r, hunit, rfl⟩
  · exact exec_writeTc (hsame.symm.trans hunit) r s
  · exact exec_writePd (hsame.symm.trans hunit) r s

/-- Settles O12: the second run overwrites what the first one wrote. -/
theorem repeatingAnOperationChangesNothing : Obligations.RepeatingAnOperationChangesNothing :=
  fun i s t hexec => (laterOperationOverwritesUnit i i s t rfl hexec).trans hexec

/-- The operation of unit TC always writes; the one of unit PD writes or is refused, in either order. -/
theorem runTwo_comm_of_tc_of_pd {i j : Instr} (hi : isTcOp i = true) (hj : isTcOp j = false) (s : State) :
    runTwo i j s = runTwo j i s := by
  rcases exec_one_write i s.params with ⟨r, _, htc⟩ | ⟨_, hpd, _⟩ | ⟨_, hpd, _⟩
  · rcases exec_one_write j s.params with ⟨_, htc', _⟩ | ⟨q, _, hwrite⟩ | ⟨why, _, hrefuse⟩
    · exact absurd htc' (by simp [hj])
    · rw [runTwo, runTwo, htc s rfl, hwrite s rfl, nextOf, nextOf, Option.bind_some, Option.bind_some,
        hwrite (writeTc r s) rfl, htc (writePd q s) rfl, writeTc_writePd]
    · rw [runTwo, runTwo, htc s rfl, hrefuse s rfl, nextOf, nextOf, Option.bind_some, Option.bind_none,
        hrefuse (writeTc r s) rfl, nextOf]
  · exact absurd hpd (by simp [hi])
  · exact absurd hpd (by simp [hi])

/-- Settles O14: of the two operations one is of unit TC and the other of unit PD. -/
theorem unitsCommute : Obligations.UnitsCommute := by
  intro i j s hne
  cases hi : isTcOp i with
  | true => exact runTwo_comm_of_tc_of_pd hi (by simpa [hi] using hne.symm) s
  | false => exact (runTwo_comm_of_tc_of_pd (by simpa [hi] using hne.symm) hi s).symm

/-! ### The invariant (10_state.md R36, R27, 70_reset_and_hazards.md R225) -/

theorem chanCode_channelBits_bounds (b : Byte) :
    1 ≤ chanCode (channelOf (channelBits b)) ∧ chanCode (channelOf (channelBits b)) ≤ 4 := by
  rw [chanCode_channelOf (channelBits_lt b)]
  split_ifs <;> decide

theorem cmdCode_bounds (c : PulseCommand) : 1 ≤ cmdCode c ∧ cmdCode c ≤ 4 := by
  cases c <;> decide

theorem tcRegs_zero_inv : TcRegs.zero.Inv := by decide

theorem pdRegs_zero_inv : PdRegs.zero.Inv := by decide

theorem tcResult_inv {b : TelegramBytes} (ha : b.addrInv = inv8 b.addr) (hc : b.cmdInv = inv8 b.cmd) :
    (tcResult b).Inv := by
  refine ⟨fun _ => ?_, fun _ herr => absurd rfl herr, fun hdone => absurd hdone (by simp [tcResult]),
    by simp [tcResult]⟩
  simp only [tcResult, ha, hc, validTelegram_pack]

theorem tcFailed_inv {e : ErrKind} (hunit : errUnit e = .tc) : (tcFailed e).Inv := by
  revert hunit
  cases e <;> decide

theorem pdFailed_inv {e : ErrKind} (hunit : errUnit e = .pd) : (pdFailed e).Inv := by
  revert hunit
  cases e <;> decide

/-- A single decoded byte is the canonical byte, so it matches. -/
theorem framesMatch_of_length_eq_one {b : Byte} {others : List Byte} (h : (b :: others).length = 1) :
    framesMatch b (b :: others) = 1 := by
  rw [framesMatch_cons_self_eq_one_iff, List.length_eq_zero_iff.mp (Nat.succ.inj h)]
  simp

theorem pdResult_inv (b : Byte) (others : List Byte) : (pdResult b (b :: others)).Inv := by
  obtain ⟨hchan, hchan'⟩ := chanCode_channelBits_bounds b
  obtain ⟨hcmdk, hcmdk'⟩ := cmdCode_bounds (commandOf (commandBits b))
  refine ⟨fun _ => ⟨?_, hchan, hchan', rfl, hcmdk, hcmdk', rfl, framesMatch_of_length_eq_one⟩,
    fun _ herr => absurd rfl herr, fun hdone => absurd hdone (by simp [pdResult]), .inl rfl⟩
  simp [pdResult]

/-- A count of zero fits every width of NFRAMES. -/
theorem countFits_zero (p : Params) : countFits p 0 = true := by
  simp [countFits_iff]

theorem exec_keeps_inv {i : Instr} {s t : State} (hinv : s.Inv) (hexec : exec i s = .next t) : t.Inv := by
  obtain ⟨htc, hpd, hfits⟩ := hinv
  rcases exec_next_cases hexec with ⟨b, ha, hc, _, rfl⟩ | ⟨e, _, hunit, _, rfl⟩ |
    ⟨_, _, b, others, _, hcount, rfl⟩ | ⟨_, _, e, hunit, _, rfl⟩
  · exact ⟨tcResult_inv ha hc, hpd, hfits⟩
  · exact ⟨tcFailed_inv hunit, hpd, hfits⟩
  · exact ⟨htc, pdResult_inv b others, hcount⟩
  · exact ⟨htc, pdFailed_inv hunit, countFits_zero _⟩

theorem applyReset_inv (s : State) : (applyReset s).Inv :=
  ⟨tcRegs_zero_inv, pdRegs_zero_inv, countFits_zero _⟩

/-- Settles O15: every result register is zero. -/
theorem invariantAtReset : Obligations.InvariantAtReset :=
  ⟨tcRegs_zero_inv, pdRegs_zero_inv, countFits_zero _⟩

/-- Settles O16: waiting changes nothing, reset restores the invariant, and an operation writes registers that
meet it. -/
theorem invariantKeptByStep : Obligations.InvariantKeptByStep := by
  intro s t hinv hstep
  rcases step_next_cases hstep with ⟨_, rfl⟩ | ⟨_, _, rfl⟩ | ⟨_, _, i, _, _, _, hexec⟩
  · exact hinv
  · exact applyReset_inv _
  · exact exec_keeps_inv (s := popEvent s) hinv hexec

/-- Settles O60: PTD leaves the registers of a failure, with one of the five error codes, or of a success. -/
theorem unwrittenCodes : Obligations.UnwrittenCodes := by
  intro threshold raw s t hexec
  rcases exec_ptd_next_pd hexec with ⟨e, hpd⟩ | ⟨b, decoded, hpd⟩
  · rw [hpd]
    cases e <;> decide
  · rw [hpd]
    exact ⟨(chanCode_channelBits_bounds b).2, (cmdCode_bounds _).2, by simp [pdResult], by simp [pdResult]⟩

/-! ### A step, by the event at the head of the port (70_reset_and_hazards.md R220, R229) -/

theorem step_of_port_nil {s : State} (h : s.port = []) : step s = .next s := by
  rw [step, h]

theorem step_of_reset {s : State} {rest : List HostEvent} (h : s.port = .reset :: rest) :
    step s = .next (applyReset (popEvent s)) := by
  rw [step, h]

/-- The reset event leaves in the registers what the reset state has there. -/
theorem readReg_applyReset (s : State) (r : ResultReg) : readReg (applyReset s) r = 0 := by
  have hsame : readReg (applyReset s) r = readReg State.reset r := by cases r <;> rfl
  rw [hsame, readReg_reset]

/-- Settles O6: the reset event zeroes both units after it is taken off the port. -/
theorem resetEventAndWaiting : Obligations.ResetEventAndWaiting := by
  refine ⟨fun s rest hport => ?_, fun s hport => step_of_port_nil hport⟩
  refine ⟨_, step_of_reset hport, readReg_applyReset _, ?_, rfl⟩
  rw [applyReset_port, popEvent_port, hport, List.tail_cons]

/-- A request that decodes to an operation within the bounds is accepted. -/
theorem acceptRequest_eq_ok {p : Params} {r : Request} {i : Instr} (hdecode : decode r = .ok i)
    (hwf : i.wf p = true) : acceptRequest p r = .ok i := by
  have hviolation : i.violation p = none := Option.isNone_iff_eq_none.mp hwf
  simp only [acceptRequest, hdecode, hviolation]

/-- Settles O18: the request is accepted, so the step performs its operation. -/
theorem stepRunsDecodedOperation : Obligations.StepRunsDecodedOperation := by
  intro s r rest i hport hdecode hwf
  have hpop : popEvent s = { s with port := rest } := by rw [popEvent, hport, List.tail_cons]
  simp only [step, hport, acceptRequest_eq_ok hdecode hwf, hpop]

/-! ### The status words (10_state.md R32) -/

theorem statusWord_toNat (err : BitVec 3) (done : BitVec 1) :
    (statusWord err done).toNat = err.toNat * 2 + done.toNat := by
  rw [statusWord, BitVec.toNat_append, ← Nat.shiftLeft_add_eq_or_of_lt done.isLt, Nat.shiftLeft_eq, pow_one]

/-- Settles O11: both status words are built alike. -/
theorem statusWordLayout : Obligations.StatusWordLayout :=
  fun s => ⟨statusWord_toNat s.tc.err s.tc.done, statusWord_toNat s.pd.err s.pd.done⟩

end Sys2Proof.Machine
end

section
/-! Proofs that the decoder and the encoder of 30_encoding.md section 1 are inverse to each other, and of the
request words of 95_test_vectors.md section 3. -/

namespace Sys2Proof

/-! ### Each format, read backwards (R71 to R73) -/

theorem decodeFormatE_eq_ok {ops : List Operand} {i : Instr} (h : decodeFormatE ops = .ok i) :
    ∃ a c, ops = [.int a, .int c] ∧ i = .enc a c := by
  unfold decodeFormatE at h
  split at h
  · cases h
    exact ⟨_, _, rfl, rfl⟩
  · cases h

/-- A run of operand words that decodes to a text under a constructor is the encoding of that text. -/
theorem decodeText_map_eq_ok {f : List Byte → Instr} {ops : List Operand} {i : Instr}
    (h : (decodeText ops).map f = .ok i) : ∃ cs, ops = encodeText cs ∧ i = f cs := by
  cases htext : decodeText ops with
  | error why =>
    rw [htext] at h
    cases h
  | ok cs =>
    rw [htext] at h
    cases h
    exact ⟨cs, eq_encodeText_of_decodeText htext, rfl⟩

theorem decodeFormatP_true_eq_ok {ops : List Operand} {i : Instr} (h : decodeFormatP true ops = .ok i) :
    ∃ t raw, ops = .nat t :: encodeText raw ∧ i = .ptd (some t) raw := by
  match ops, h with
  | .nat t :: rest, h =>
    obtain ⟨raw, rfl, rfl⟩ := decodeText_map_eq_ok (f := .ptd (some t)) h
    exact ⟨t, raw, rfl, rfl⟩
  | [], h => cases h
  | .int _ :: _, h => cases h
  | .char _ :: _, h => cases h

/-- A request that decodes has one of the four OPSEL values that are not reserved (R74). -/
theorem opsel_of_decode_eq_ok {r : Request} {i : Instr} (h : decode r = .ok i) :
    r.opsel ∈ [0x01, 0x02, 0x03, 0x07] := by
  by_contra hreserved
  rw [decode_of_formatOf_eq_none ((formatOf_eq_none_iff _).mpr hreserved)] at h
  cases h

theorem encode_of_decode {r : Request} {i : Instr} (h : decode r = .ok i) : encode i = r := by
  have hopsel := opsel_of_decode_eq_ok h
  obtain ⟨opsel, ops⟩ := r
  simp only [List.mem_cons, List.not_mem_nil, or_false] at hopsel
  rcases hopsel with rfl | rfl | rfl | rfl
  · rw [decode_formatE] at h
    obtain ⟨a, c, rfl, rfl⟩ := decodeFormatE_eq_ok h
    rfl
  · rw [decode_formatD] at h
    obtain ⟨txt, rfl, rfl⟩ := decodeText_map_eq_ok h
    rfl
  · rw [decode_formatP_noThreshold] at h
    obtain ⟨raw, rfl, rfl⟩ := decodeText_map_eq_ok (f := .ptd none) h
    rfl
  · rw [decode_formatP_threshold] at h
    obtain ⟨t, raw, rfl, rfl⟩ := decodeFormatP_true_eq_ok h
    rfl

/-- Settles O22: the formats read forwards, and each format read backwards. -/
theorem decodeEncodeAgree : Obligations.DecodeEncodeAgree :=
  ⟨decode_encode, fun _ _ => encode_of_decode⟩

/-! ### The words of the programs (95_test_vectors.md section 3) -/

/-- Settles O21: four requests are encodings, and two have an OPSEL that no row of the table matches. -/
theorem programWordsDecode : Obligations.ProgramWordsDecode :=
  ⟨decode_encode (.enc 1 0x45), decode_encode (.dec [0x30, 0x31, 0x46, 0x45, 0x34, 0x35, 0x42, 0x41]),
    decode_encode (.ptd none [0x31, 0x32, 0x2C, 0x78]), decode_encode (.ptd (some 1000) []),
    decode_of_formatOf_eq_none (r := ⟨0x00, []⟩) (by decide),
    decode_of_formatOf_eq_none (r := ⟨0x05, [.int 0, .int 0]⟩) (by decide)⟩

end Sys2Proof
end

section
/-! Proofs about unit TC: the inverse of a Byte (00_scope.md R6), what the spec derives of ENC and of DEC in
40_telegram_codec.md sections 1 and 2, and the display views (00_scope.md R9). -/

namespace Sys2Proof.Machine

/-! ### The inverse of a Byte (00_scope.md R6) -/

theorem inv8_eq_not (v : Byte) : inv8 v = ~~~v :=
  BitVec.eq_of_toNat_eq (by rw [inv8_toNat, BitVec.toNat_not])

@[simp] theorem inv8_inv8 (v : Byte) : inv8 (inv8 v) = v := by
  rw [inv8_eq_not, inv8_eq_not, BitVec.not_not]

theorem inv8_eq_xor (v : Byte) : inv8 v = v ^^^ 0xFF :=
  (inv8_eq_not v).trans BitVec.xor_allOnes.symm

theorem xor_inv8 (v : Byte) : v ^^^ inv8 v = 0xFF := by
  rw [inv8_eq_xor, ← BitVec.xor_assoc, BitVec.xor_self, BitVec.zero_xor]

theorem toNat_add_inv8_toNat (v : Byte) : v.toNat + (inv8 v).toNat = 255 := by
  rw [inv8_toNat]
  omega

theorem and_inv8 (v : Byte) : v &&& inv8 v = 0 := by
  rw [inv8_eq_not]
  exact BitVec.and_not_self v

/-- 255 is odd, so it is not twice a number. -/
theorem inv8_ne_self (v : Byte) : inv8 v ≠ v := by
  intro hself
  have hsum := toNat_add_inv8_toNat v
  rw [hself] at hsum
  omega

/-- Settles O2: `255 - v` is the complement, and the laws follow from that. -/
theorem inverseByteLaws : Obligations.InverseByteLaws :=
  fun v => ⟨inv8_toNat v, inv8_eq_xor v, inv8_eq_not v, inv8_inv8 v, toNat_add_inv8_toNat v, and_inv8 v,
    inv8_ne_self v⟩

/-! ### ENC (40_telegram_codec.md section 1) -/

/-- Whatever the width of its operands, ENC writes the Telegram of two Bytes and their inverses. -/
theorem exec_enc_next {a c : Int} {s t : State} (h : exec (.enc a c) s = .next t) :
    ∃ x y : Byte, t = writeTc (tcResult ⟨x, inv8 x, y, inv8 y⟩) s := by
  cases h
  exact ⟨_, _, rfl⟩

@[simp] theorem mask8_toNat_self (v : Byte) : mask8 (v.toNat : Int) = v := by
  rw [mask8_natCast_toNat v le_rfl, BitVec.setWidth_eq]

/-- ENC of two Bytes packs them with their inverses. -/
theorem encodeTelegram_toNat (a c : Byte) : encodeTelegram a.toNat c.toNat = ⟨a, inv8 a, c, inv8 c⟩ := by
  simp only [encodeTelegram, mask8_toNat_self]

theorem exec_enc_toNat (a c : Byte) {s : State} (h : s.params.legal = true) :
    exec (.enc a.toNat c.toNat) s = .next (writeTc (tcResult ⟨a, inv8 a, c, inv8 c⟩) s) := by
  rw [exec_enc_eq _ _ h, encodeTelegram_toNat]

/-- The address and the command can be read off a packed Telegram. -/
theorem tcResult_telegram_inj {b b' : TelegramBytes} (h : (tcResult b).telegram = (tcResult b').telegram) :
    b.addr = b'.addr ∧ b.cmd = b'.cmd := by
  have haddr := congrArg addrOf h
  have hcmd := congrArg cmdOf h
  simp only [tcResult, addrOf_pack, cmdOf_pack] at haddr hcmd
  exact ⟨haddr, hcmd⟩

theorem enc_telegram (a c : Int) {s : State} (h : s.params.legal = true) :
    (nextOf (exec (.enc a c) s)).map (·.tc.telegram) = some (tcResult (encodeTelegram a c)).telegram := by
  rw [exec_enc_eq a c h]
  rfl

/-- Settles O26: the Telegram of ENC is packed from two Bytes and their inverses. -/
theorem encTelegramProperties : Obligations.EncTelegramProperties := by
  refine ⟨fun a c s t hexec => ?_, fun a c a' c' s t t' hlegal hexec hexec' htelegram => ?_,
    fun s hlegal => ⟨?_, ?_, ?_, ?_⟩⟩
  · obtain ⟨x, y, rfl⟩ := exec_enc_next hexec
    simp only [readReg, writeTc_tc, tcResult, addrOf_pack, addrInvOf_pack, cmdOf_pack, cmdInvOf_pack]
    refine ⟨validTelegram_pack x y, ?_, xor_inv8 x, xor_inv8 y⟩
    have hx := toNat_add_inv8_toNat x
    have hy := toNat_add_inv8_toNat y
    omega
  · cases (exec_enc_toNat a c hlegal).symm.trans hexec
    cases (exec_enc_toNat a' c' hlegal).symm.trans hexec'
    exact tcResult_telegram_inj htelegram
  · exact (enc_telegram 0 0 hlegal).trans (by decide)
  · exact (enc_telegram 0xFF 0xFF hlegal).trans (by decide)
  · exact (enc_telegram 0 0xFF hlegal).trans (by decide)
  · exact (enc_telegram 0xFF 0 hlegal).trans (by decide)

/-- Settles O27: ENC writes one known Telegram, and each view of it is computed. -/
theorem displayViewsOfExamples : Obligations.DisplayViewsOfExamples :=
  ⟨⟨_, exec_enc_eq 0x01 0x45 rfl, by decide, by decide, by decide, by decide, by decide, by decide,
    by decide⟩, by decide, by decide, by decide⟩

/-! ### A successful DEC and ENC (40_telegram_codec.md section 2) -/

/-- A DEC that reports no error kind wrote the Telegram of two Bytes and their inverses. -/
theorem exec_dec_next_success {txt : List Byte} {s t : State} (hexec : exec (.dec txt) s = .next t)
    (herr : t.tc.err = 0) : ∃ x y : Byte, t = writeTc (tcResult ⟨x, inv8 x, y, inv8 y⟩) s := by
  rcases execDec_cases txt s with ⟨e, _, _, hfailed⟩ | ⟨b, _, ha, hc, hresult⟩
  · cases hfailed.symm.trans hexec
    exact absurd herr (errCode_ne_zero e)
  · cases hresult.symm.trans hexec
    exact ⟨b.addr, b.cmd, by rw [← ha, ← hc]⟩

/-- Settles O33: the Bytes that DEC wrote are those ENC gets back as operands. -/
theorem decSuccessEqualsEnc : Obligations.DecSuccessEqualsEnc := by
  intro txt s t hlegal hexec herr
  obtain ⟨x, y, rfl⟩ := exec_dec_next_success hexec herr
  simp only [readReg, writeTc_tc, tcResult, addrOf_pack, cmdOf_pack]
  exact exec_enc_toNat x y hlegal

/-! ### Letter case and mark (00_scope.md R7, 40_telegram_codec.md R111) -/

/-- DEC reads no more of a text than its four groups. -/
theorem exec_dec_congr_telegramFields {txt txt' : List Byte}
    (h : telegramFields txt = telegramFields txt') (s : State) :
    exec (.dec txt) s = exec (.dec txt') s := by
  simp only [exec, execDec, decodeTelegram, h]

/-- The groups are read from the values of the digits. -/
theorem exec_dec_congr_hexDigits {txt txt' : List Byte}
    (h : hexDigits (digitString txt) = hexDigits (digitString txt')) (s : State) :
    exec (.dec txt) s = exec (.dec txt') s :=
  exec_dec_congr_telegramFields (by simp only [telegramFields, h]) s

/-- 'A' to 'F' and 'a' to 'f' have the same six values. -/
theorem hexval_lowerHex (ch : Byte) : hexval (lowerHex ch) = hexval ch := by
  unfold lowerHex
  split
  · rename_i hupper
    have hupper : 0x41 ≤ ch.toNat ∧ ch.toNat ≤ 0x46 := hupper
    have hlower : (ch + 0x20).toNat = ch.toNat + 0x20 := by bv_omega
    rw [hexval_eq, hexval_eq, hlower, if_neg (by omega), if_neg (by omega), if_pos (by omega),
      if_neg (by omega), if_pos hupper]
    exact congrArg some (by omega)
  · rfl

theorem isHex_lowerHex (ch : Byte) : isHex (lowerHex ch) = isHex ch := by
  rw [isHex, isHex, hexval_lowerHex]

theorem hexDigits_map_lowerHex (ds : List Byte) : hexDigits (ds.map lowerHex) = hexDigits ds := by
  induction ds with
  | nil => rfl
  | cons ch rest ih => simp only [List.map_cons, hexDigits, hexval_lowerHex, ih]

theorem isHex_of_mem_map_lowerHex {ds : List Byte} (h : ∀ ch ∈ ds, isHex ch = true) :
    ∀ ch ∈ ds.map lowerHex, isHex ch = true := by
  simpa only [List.forall_mem_map, isHex_lowerHex] using h

/-- A mark is cut off, and a run of digits without one stays whole. -/
theorem digitString_append_of_isHex {mark ds : List Byte} (hmark : mark ∈ hexMarks)
    (h : ∀ ch ∈ ds, isHex ch = true) : digitString (mark ++ ds) = ds := by
  rcases mem_hexMarks.mp hmark with rfl | hmark
  · exact digitString_of_isHex ds h
  · exact digitString_mark_append hmark ds

theorem exec_dec_append {mark ds : List Byte} (hmark : mark ∈ hexMarks)
    (h : ∀ ch ∈ ds, isHex ch = true) (s : State) : exec (.dec (mark ++ ds)) s = exec (.dec ds) s :=
  exec_dec_congr_hexDigits (by rw [digitString_append_of_isHex hmark h, digitString_of_isHex ds h]) s

theorem exec_dec_append_map_lowerHex {mark ds : List Byte} (hmark : mark ∈ hexMarks)
    (h : ∀ ch ∈ ds, isHex ch = true) (s : State) :
    exec (.dec (mark ++ ds.map lowerHex)) s = exec (.dec ds) s := by
  have hlower := isHex_of_mem_map_lowerHex h
  refine (exec_dec_append hmark hlower s).trans (exec_dec_congr_hexDigits ?_ s)
  rw [digitString_of_isHex _ hlower, digitString_of_isHex ds h, hexDigits_map_lowerHex]

/-- Settles O36: neither a mark nor the letter case reaches the digit values. -/
theorem caseAndMarkDoNotMatter : Obligations.CaseAndMarkDoNotMatter := by
  refine ⟨fun ds mark s h hmark => ⟨exec_dec_append hmark h s, exec_dec_append_map_lowerHex hmark h s⟩,
    fun s => ⟨?_, ?_⟩⟩
  · exact exec_dec_of_fields_inverse (b := ⟨0x01, 0xFE, 0x12, 0xED⟩) (by decide) (by decide) (by decide) s
  · exact exec_dec_of_fields_inverse (b := ⟨0x01, 0xFE, 0x12, 0xED⟩) (by decide) (by decide) (by decide) s

/-! ### The canonical text of a Telegram (00_scope.md R9, 30_encoding.md R79) -/

theorem hexval_hexChar {d : Nat} (h : d < 16) : hexval (hexChar d) = some d := by
  interval_cases d <;> rfl

theorem isHex_hexChar {d : Nat} (h : d < 16) : isHex (hexChar d) = true := by
  rw [isHex, hexval_hexChar h, Option.isSome_some]

theorem isHex_of_mem_hex2 {b ch : Byte} (h : ch ∈ hex2 b) : isHex ch = true := by
  rcases List.mem_pair.mp h with rfl | rfl
  · exact isHex_hexChar (by omega)
  · exact isHex_hexChar (by omega)

theorem forall_isHex_hex2_append (a b c : Byte) {last : List Byte} (h : ∀ ch ∈ last, isHex ch = true) :
    ∀ ch ∈ hex2 a ++ hex2 b ++ hex2 c ++ last, isHex ch = true := by
  simp only [List.forall_mem_append]
  exact ⟨⟨⟨fun _ => isHex_of_mem_hex2, fun _ => isHex_of_mem_hex2⟩, fun _ => isHex_of_mem_hex2⟩, h⟩

theorem isHex_of_mem_hex8 {t : Telegram} {ch : Byte} (h : ch ∈ hex8 t) : isHex ch = true :=
  forall_isHex_hex2_append _ _ _ (fun _ => isHex_of_mem_hex2) ch h

theorem hex8_length (t : Telegram) : (hex8 t).length = 8 := rfl

/-- The group that a Byte's two digits spell is the Byte. -/
theorem groupAt_hex2_append (b : Byte) (rest : List Byte) : groupAt (hex2 b ++ rest) 0 = b.toNat := by
  have hhi : digitAt (hex2 b ++ rest) 0 = b.toNat / 16 := by
    simp [digitAt, hex2, hexval_hexChar (show b.toNat / 16 < 16 by omega)]
  have hlo : digitAt (hex2 b ++ rest) 1 = b.toNat % 16 := by
    simp [digitAt, hex2, hexval_hexChar (show b.toNat % 16 < 16 by omega)]
  rw [groupAt, hhi, hlo]
  omega

/-- Three Bytes in two digits each, and a last group of any form. -/
theorem bytesOfDigits_hex2_append (a b c : Byte) (last : List Byte) :
    bytesOfDigits (hex2 a ++ hex2 b ++ hex2 c ++ last) =
      ⟨a, b, c, BitVec.ofNat 8 (lastGroup (hex2 a ++ hex2 b ++ hex2 c ++ last))⟩ := by
  have ha : groupAt (hex2 a ++ hex2 b ++ hex2 c ++ last) 0 = a.toNat :=
    groupAt_hex2_append a (hex2 b ++ hex2 c ++ last)
  have hb : groupAt (hex2 a ++ hex2 b ++ hex2 c ++ last) 2 = b.toNat :=
    groupAt_hex2_append b (hex2 c ++ last)
  have hc : groupAt (hex2 a ++ hex2 b ++ hex2 c ++ last) 4 = c.toNat := groupAt_hex2_append c last
  simp only [bytesOfDigits, ha, hb, hc, BitVec.ofNat_toNat, BitVec.setWidth_eq]

theorem lastGroup_hex8 (t : Telegram) : lastGroup (hex8 t) = (cmdInvOf t).toNat :=
  groupAt_hex2_append (cmdInvOf t) []

theorem bytesOfDigits_hex8 (t : Telegram) :
    bytesOfDigits (hex8 t) = ⟨addrOf t, addrInvOf t, cmdOf t, cmdInvOf t⟩ := by
  calc bytesOfDigits (hex8 t)
      = ⟨addrOf t, addrInvOf t, cmdOf t, BitVec.ofNat 8 (lastGroup (hex8 t))⟩ :=
        bytesOfDigits_hex2_append _ _ _ _
    _ = ⟨addrOf t, addrInvOf t, cmdOf t, cmdInvOf t⟩ := by
        rw [lastGroup_hex8, BitVec.ofNat_toNat, BitVec.setWidth_eq]

/-- The digits of the canonical text spell the Bytes that its Telegram was packed from. -/
theorem bytesOfDigits_hex8_tcResult (b : TelegramBytes) : bytesOfDigits (hex8 (tcResult b).telegram) = b := by
  rw [bytesOfDigits_hex8, tcResult, addrOf_pack, addrInvOf_pack, cmdOf_pack, cmdInvOf_pack]

theorem telegramText_of_isHex {mark ds : List Byte} (hmark : mark ∈ hexMarks)
    (hlength : ds.length = 7 ∨ ds.length = 8) (h : ∀ ch ∈ ds, isHex ch = true) :
    TelegramText (mark ++ ds) ds :=
  ⟨⟨mark, hmark, rfl⟩, hlength, h⟩

/-- 7 or 8 hexadecimal digits are a text of the grammar without a mark. -/
theorem telegramFields_of_digits {ds : List Byte} (hlength : ds.length = 7 ∨ ds.length = 8)
    (h : ∀ ch ∈ ds, isHex ch = true) : telegramFields ds = some (bytesOfDigits ds) :=
  telegramFields_of_telegramText (telegramText_of_isHex (mark := []) (by decide) hlength h)

/-- DEC of the canonical text of the Telegram of two Bytes and their inverses gets that Telegram back. -/
theorem exec_dec_hex8 (a c : Byte) (s : State) :
    exec (.dec (hex8 (tcResult ⟨a, inv8 a, c, inv8 c⟩).telegram)) s =
      .next (writeTc (tcResult ⟨a, inv8 a, c, inv8 c⟩) s) := by
  refine exec_dec_of_fields_inverse ?_ rfl rfl s
  rw [telegramFields_of_digits (.inr (hex8_length _)) fun _ => isHex_of_mem_hex8,
    bytesOfDigits_hex8_tcResult]

/-- Settles O34: the canonical text is a run of hexadecimal digits, so neither a mark nor the letter case
changes what DEC makes of it. -/
theorem encDecRoundTrip : Obligations.EncDecRoundTrip := by
  intro a c mark s t hlegal hmark hexec
  cases (exec_enc_toNat a c hlegal).symm.trans hexec
  have hhex := fun ch (h : ch ∈ hex8 (tcResult ⟨a, inv8 a, c, inv8 c⟩).telegram) => isHex_of_mem_hex8 h
  refine ⟨(exec_dec_append hmark hhex s).trans (exec_dec_hex8 a c s),
    (exec_dec_append_map_lowerHex hmark hhex s).trans (exec_dec_hex8 a c s), ?_, ?_⟩
  · simp only [readReg, writeTc_tc, tcResult, addrOf_pack]
  · simp only [readReg, writeTc_tc, tcResult, cmdOf_pack]

/-! ### One digit changed (40_telegram_codec.md section 2) -/

theorem digitAt_set {ds : List Byte} {k v : Nat} {ch : Byte} (hk : k < ds.length)
    (hv : hexval ch = some v) (i : Nat) :
    digitAt (ds.set k ch) i = if k = i then v else digitAt ds i := by
  unfold digitAt
  rw [List.getElem?_set, if_pos hk]
  split
  · rename_i hki
    subst hki
    rw [Option.bind_some, hv, Option.getD_some]
  · rfl

/-- A group without digit `k` keeps its value. -/
theorem groupAt_set_of_ne {ds : List Byte} {k i : Nat} {ch : Byte} (hi : k ≠ i) (hi' : k ≠ i + 1) :
    groupAt (ds.set k ch) i = groupAt ds i := by
  rw [groupAt, groupAt, digitAt, digitAt, digitAt, digitAt, List.getElem?_set_ne hi,
    List.getElem?_set_ne hi']

/-- Two groups that add up to 255 no longer do once one of their four digits has another value, for the sum
moves by a multiple of 1 or 16. -/
theorem groupAt_set_ne_inverse {ds : List Byte} {i j v : Nat} {ch : Byte} (hj : j < 4)
    (hk : i + j < ds.length) (hv : hexval ch = some v) (hne : v ≠ digitAt ds (i + j))
    (hinverse : groupAt ds (i + 2) = 255 - groupAt ds i) :
    groupAt (ds.set (i + j) ch) (i + 2) ≠ 255 - groupAt (ds.set (i + j) ch) i := by
  have hdigit := digitAt_set hk hv
  have hsum : groupAt ds i + groupAt ds (i + 2) = 255 := by
    have := groupAt_lt ds i
    omega
  intro hinverse'
  have hsum' : groupAt (ds.set (i + j) ch) i + groupAt (ds.set (i + j) ch) (i + 2) = 255 := by
    have := groupAt_lt (ds.set (i + j) ch) i
    omega
  simp only [groupAt, hdigit, Nat.add_assoc, Nat.reduceAdd, Nat.add_right_inj] at hsum hsum'
  interval_cases j <;> simp at hne hsum' <;> omega

theorem isHex_of_mem_set {ds : List Byte} {k : Nat} {ch x : Byte} (h : ∀ x ∈ ds, isHex x = true)
    (hch : isHex ch = true) (hx : x ∈ ds.set k ch) : isHex x = true := by
  rcases List.mem_or_eq_of_mem_set hx with hmem | rfl
  · exact h x hmem
  · exact hch

/-- The check that a changed digit of a valid 8-digit string fails. -/
theorem checkDigits_set {ds : List Byte} {k v : Nat} {ch : Byte} (hlength : ds.length = 8) (hk : k < 8)
    (hv : hexval ch = some v) (hne : v ≠ digitAt ds k) (haddr : groupAt ds 2 = 255 - groupAt ds 0)
    (hcmd : lastGroup ds = 255 - groupAt ds 4) :
    checkDigits (ds.set k ch) =
      .error (if k < 4 then .addressInverseMismatch else .commandInverseMismatch) := by
  rw [lastGroup, if_pos hlength] at hcmd
  split
  · rename_i hfirst
    rw [checkDigits_eq_addressInverseMismatch_iff]
    have := groupAt_set_ne_inverse (i := 0) (j := k) hfirst (by omega) hv (by simpa using hne) haddr
    simpa using this
  · rw [checkDigits_eq_commandInverseMismatch_iff, groupAt_set_of_ne (by omega) (by omega),
      groupAt_set_of_ne (by omega) (by omega), lastGroup, if_pos (by simpa using hlength)]
    obtain ⟨j, rfl⟩ := Nat.exists_eq_add_of_le (show 4 ≤ k by omega)
    exact ⟨haddr, groupAt_set_ne_inverse (by omega) (by omega) hv hne hcmd⟩

/-- The digits of ENC's Telegram pass both inverse checks. -/
theorem groupAt_hex8_inverse (a c : Byte) :
    groupAt (hex8 (tcResult ⟨a, inv8 a, c, inv8 c⟩).telegram) 2 =
      255 - groupAt (hex8 (tcResult ⟨a, inv8 a, c, inv8 c⟩).telegram) 0 ∧
    lastGroup (hex8 (tcResult ⟨a, inv8 a, c, inv8 c⟩).telegram) =
      255 - groupAt (hex8 (tcResult ⟨a, inv8 a, c, inv8 c⟩).telegram) 4 := by
  have hbytes := bytesOfDigits_hex8_tcResult ⟨a, inv8 a, c, inv8 c⟩
  exact ⟨(bytesOfDigits_addrInv_eq_iff _).mp (by rw [hbytes]),
    (bytesOfDigits_cmdInv_eq_iff _).mp (by rw [hbytes])⟩

/-- Settles O35: the changed text is still of the grammar, and the check of its half fails. -/
theorem oneWrongDigitDetected : Obligations.OneWrongDigitDetected := by
  intro a c ch k mark s t hlegal hmark hexec hk hhex hne
  cases (exec_enc_toNat a c hlegal).symm.trans hexec
  obtain ⟨haddr, hcmd⟩ := groupAt_hex8_inverse a c
  obtain ⟨v, hv⟩ := Option.isSome_iff_exists.mp hhex
  have htext := telegramText_of_isHex hmark
    (ds := (hex8 (tcResult ⟨a, inv8 a, c, inv8 c⟩).telegram).set k ch)
    (.inr (List.length_set.trans (hex8_length _)))
    fun _ => isHex_of_mem_set (fun _ => isHex_of_mem_hex8) hhex
  have hcheck := checkDigits_set (hex8_length _) hk hv (fun hsame => hne (hsame ▸ hv)) haddr hcmd
  refine ⟨_, exec_dec_of_error ((decodeTelegram_of_telegramText htext).trans hcheck) s, ?_⟩
  exact apply_ite errCode (k < 4) .addressInverseMismatch .commandInverseMismatch

/-! ### The 7-digit form (40_telegram_codec.md section 2) -/

/-- The last group of a 7-digit string is its one digit. -/
theorem telegramFields_sevenDigits (a b c : Byte) {d : Byte} {v : Nat} (hv : hexval d = some v) :
    telegramFields (hex2 a ++ hex2 b ++ hex2 c ++ [d]) = some ⟨a, b, c, BitVec.ofNat 8 v⟩ := by
  have hlast : lastGroup (hex2 a ++ hex2 b ++ hex2 c ++ [d]) = (hexval d).getD 0 := rfl
  have hdigits := forall_isHex_hex2_append a b c (last := [d]) (by simp [isHex, hv])
  rw [telegramFields_of_digits (.inl rfl) hdigits, bytesOfDigits_hex2_append, hlast, hv, Option.getD_some]

/-- A '0' before the last digit does not change the value of the last group. -/
theorem telegramFields_zero_before_last (a b c : Byte) {d : Byte} {v : Nat} (hv : hexval d = some v) :
    telegramFields (hex2 a ++ hex2 b ++ hex2 c ++ [0x30, d]) = some ⟨a, b, c, BitVec.ofNat 8 v⟩ := by
  have hlast : lastGroup (hex2 a ++ hex2 b ++ hex2 c ++ [0x30, d]) = 0 * 16 + (hexval d).getD 0 := rfl
  have hd : isHex d = true := by simp [isHex, hv]
  have hdigits := forall_isHex_hex2_append a b c (last := [0x30, d])
    (List.forall_mem_cons.mpr ⟨by decide, List.forall_mem_singleton.mpr hd⟩)
  rw [telegramFields_of_digits (.inr rfl) hdigits, bytesOfDigits_hex2_append, hlast, hv, Option.getD_some,
    Nat.zero_mul, Nat.zero_add]

theorem exec_dec_of_fields_command_mismatch {txt : List Byte} {b : TelegramBytes}
    (hfields : telegramFields txt = some b) (ha : b.addrInv = inv8 b.addr)
    (hc : b.cmdInv ≠ inv8 b.cmd) (s : State) :
    exec (.dec txt) s = .next (writeTc (tcFailed .commandInverseMismatch) s) :=
  exec_dec_of_error (by simp [decodeTelegram, hfields, ha, hc]) s

/-- Settles O37: both forms have the same four groups, the address check passes, and the command check compares
the value of the last digit. -/
theorem sevenDigitForm : Obligations.SevenDigitForm := by
  intro a c d s hhex
  obtain ⟨v, hv⟩ := Option.isSome_iff_exists.mp hhex
  have hlt := hexval_lt hv
  have hfields := telegramFields_sevenDigits a (inv8 a) c hv
  have hsame := exec_dec_congr_telegramFields
    ((telegramFields_zero_before_last a (inv8 a) c hv).trans hfields.symm) s
  have hcheck : BitVec.ofNat 8 v = inv8 c ↔ v = 255 - c.toNat := by
    simpa using ofNat_eq_inv8_iff (show v < 256 by omega) c.isLt
  rw [hsame, hv, Option.some.injEq, ne_eq, Option.some.injEq, ← hcheck]
  by_cases hc : BitVec.ofNat 8 v = inv8 c
  · have hexec := exec_dec_of_fields_inverse hfields rfl hc s
    refine ⟨_, hexec, fun _ => ⟨?_, rfl, tcResult_telegram_toNat rfl hc⟩, fun hno => absurd hc hno, hexec⟩
    have := hcheck.mp hc
    omega
  · have hexec := exec_dec_of_fields_command_mismatch hfields rfl hc s
    exact ⟨_, hexec, fun hyes => absurd hyes hc, fun _ => rfl, hexec⟩

/-! ### The length of a text (40_telegram_codec.md section 2) -/

/-- A text of the grammar has 7 or 8 characters without a mark and 9 or 10 with one. -/
theorem length_of_telegramText {txt ds : List Byte} (h : TelegramText txt ds) :
    (hasHexMark txt = false ∧ 7 ≤ txt.length ∧ txt.length ≤ 8) ∨
    (hasHexMark txt = true ∧ 9 ≤ txt.length ∧ txt.length ≤ 10) := by
  have hds := digitString_of_telegramText h
  obtain ⟨_, hlength, _⟩ := h
  rcases digitString_cases txt with ⟨htxt, hmark⟩ | ⟨htxt, hmark⟩ | ⟨htxt, hmark⟩
  all_goals
    have hcount := congrArg List.length htxt
    rw [hds] at hcount
  · exact .inr ⟨hmark, by simp at hcount; omega⟩
  · exact .inr ⟨hmark, by simp at hcount; omega⟩
  · exact .inl ⟨hmark, by omega⟩

/-- Settles O39: a text that is not malformed is of the grammar, whose lengths are bounded. -/
theorem decLengthBounds : Obligations.DecLengthBounds := by
  intro txt s
  obtain ⟨t, hexec, herr⟩ := decMalformedExactly txt s
  refine ⟨t, hexec, ?_⟩
  by_cases hgrammar : ∃ ds, TelegramText txt ds
  · obtain ⟨ds, htext⟩ := hgrammar
    rcases length_of_telegramText htext with ⟨hmark, hmin, hmax⟩ | ⟨hmark, hmin, hmax⟩
    · exact ⟨fun _ => by omega, fun _ => by omega, fun _ _ => by omega, fun _ _ => hmark⟩
    · exact ⟨fun _ => by omega, fun _ => by omega, fun _ _ => hmark, fun _ _ => by omega⟩
  · have herr := herr.mpr hgrammar
    exact ⟨fun _ => herr, fun _ => herr, fun _ hne => absurd herr hne, fun _ hne => absurd herr hne⟩

end Sys2Proof.Machine
end

section
/-! Proofs about unit PD: the empty tokens and the frames of a train (41_pulse_parse_segment.md sections 1 and
2), what the spec derives of decodeFrame (42_pulse_frame_decode.md), and of the whole of PTD
(43_pulse_train_decode.md section 2). -/

namespace Sys2Proof.Machine

/-! ### Empty tokens (41_pulse_parse_segment.md R132) -/

/-- An empty token anywhere adds no pulse. -/
theorem parseTokens_append_nil_cons (p : Params) (toks toks' : List (List Byte)) :
    parseTokens p (toks ++ [] :: toks') = parseTokens p (toks ++ toks') := by
  induction toks with
  | nil => rfl
  | cons tok toks ih =>
    cases tok with
    | nil => exact ih
    | cons ch rest => simp only [List.cons_append, parseTokens, ih]

/-- A comma that is white space vanishes; any other comma cuts what white space leaves. -/
theorem parse_append_comma_cons {p : Params} (h : isWhitespace p comma = false) (before after : List Byte) :
    parse p (before ++ comma :: after) =
      parseTokens p (splitCommas (before.filter (fun ch => !isWhitespace p ch)) ++
        splitCommas (after.filter (fun ch => !isWhitespace p ch))) := by
  rw [parse, List.filter_append, List.filter_cons_of_pos (by simp [h]), splitCommas_append_comma]

theorem parse_comma_cons (p : Params) (raw : List Byte) : parse p (comma :: raw) = parse p raw := by
  cases h : isWhitespace p comma with
  | true => exact parse_append_cons_whitespace h [] raw
  | false => exact parse_append_comma_cons h [] raw

theorem parse_append_comma (p : Params) (raw : List Byte) : parse p (raw ++ [comma]) = parse p raw := by
  cases h : isWhitespace p comma with
  | true => rw [parse_append_cons_whitespace h, List.append_nil]
  | false =>
    rw [parse_append_comma_cons h, List.filter_nil, splitCommas, parseTokens_append_nil_cons,
      List.append_nil, parse]

/-- The second comma begins what is left after the first one with an empty token. -/
theorem parse_append_comma_comma (p : Params) (before after : List Byte) :
    parse p (before ++ comma :: comma :: after) = parse p (before ++ comma :: after) := by
  cases h : isWhitespace p comma with
  | true => exact parse_append_cons_whitespace h before (comma :: after)
  | false =>
    rw [parse_append_comma_cons h, parse_append_comma_cons h, List.filter_cons_of_pos (by simp [h]),
      splitCommas, if_pos rfl, parseTokens_append_nil_cons]

/-- Settles O42: each of the three commas makes one empty token more. -/
theorem emptyTokensSkipped : Obligations.EmptyTokensSkipped :=
  ⟨parse_comma_cons, parse_append_comma, parse_append_comma_comma⟩

/-! ### The frames of a train (41_pulse_parse_segment.md R144) -/

/-- Every train is empty, or one frame that the end closes, or a frame that a gap closes before a train that
is not empty (R141 to R143). -/
theorem train_induction {motive : List Nat → Prop} (nil : motive [])
    (last : ∀ low x, (∀ y ∈ low, y ≤ 5000) → motive (low ++ [x]))
    (gap : ∀ low gap next rest, (∀ y ∈ low, y ≤ 5000) → 5000 < gap → motive (next :: rest) →
      motive (low ++ gap :: next :: rest))
    (train : List Nat) : motive train := by
  suffices h : ∀ low, (∀ y ∈ low, y ≤ 5000) → train ≠ [] → motive (low ++ train) by
    by_cases hne : train = []
    · exact hne ▸ nil
    · exact h [] (by simp) hne
  induction train with
  | nil => exact fun _ _ hne => absurd rfl hne
  | cons x rest ih =>
    intro low hlow _
    cases rest with
    | nil => exact last low x hlow
    | cons next rest =>
      by_cases hx : 5000 < x
      · exact gap low x next rest hlow hx (ih [] (by simp) (by simp))
      · have hlow' : ∀ y ∈ low ++ [x], y ≤ 5000 :=
          List.forall_mem_append.mpr ⟨hlow, List.forall_mem_singleton.mpr (by omega)⟩
        simpa using ih (low ++ [x]) hlow' (by simp)

theorem segmentFrames_low_gap {low : List Nat} (hlow : ∀ x ∈ low, x ≤ 5000) {gap : Nat} (hgap : 5000 < gap)
    (next : Nat) (rest : List Nat) :
    segmentFrames (low ++ gap :: next :: rest) = (low ++ [gap]) :: segmentFrames (next :: rest) := by
  obtain ⟨_, hcut, _⟩ := segmentFramesCuts
  exact hcut low rest gap next hlow hgap

theorem segmentFrames_low_last {low : List Nat} (hlow : ∀ x ∈ low, x ≤ 5000) (x : Nat) :
    segmentFrames (low ++ [x]) = [low ++ [x]] := by
  obtain ⟨_, _, hend⟩ := segmentFramesCuts
  exact hend low x hlow

theorem segmentFrames_flatten (train : List Nat) : (segmentFrames train).flatten = train :=
  segmentFrom_flatten [] train

theorem segmentFrames_ne_nil {train : List Nat} (h : train ≠ []) : segmentFrames train ≠ [] := by
  intro hnil
  have hflatten := segmentFrames_flatten train
  rw [hnil] at hflatten
  exact h hflatten.symm

theorem ne_nil_of_mem_segmentFrames {train f : List Nat} (h : f ∈ segmentFrames train) : f ≠ [] := by
  induction train using train_induction with
  | nil => cases h
  | last low x hlow =>
    rw [segmentFrames_low_last hlow, List.mem_singleton] at h
    simp [h]
  | gap low gap next rest hlow hgap ih =>
    rw [segmentFrames_low_gap hlow hgap, List.mem_cons] at h
    rcases h with rfl | h
    · simp
    · exact ih h

/-- In every frame only the last pulse can be above 5000. -/
theorem le_of_mem_dropLast_of_mem_segmentFrames {train f : List Nat} (h : f ∈ segmentFrames train) :
    ∀ x ∈ f.dropLast, x ≤ 5000 := by
  induction train using train_induction with
  | nil => cases h
  | last low x hlow =>
    rw [segmentFrames_low_last hlow, List.mem_singleton] at h
    rwa [h, List.dropLast_concat]
  | gap low gap next rest hlow hgap ih =>
    rw [segmentFrames_low_gap hlow hgap, List.mem_cons] at h
    rcases h with rfl | h
    · rwa [List.dropLast_concat]
    · exact ih h

/-- Every frame but the last ends in a pulse above 5000. -/
theorem getLast?_of_mem_dropLast_segmentFrames {train f : List Nat}
    (h : f ∈ (segmentFrames train).dropLast) : ∃ gap, f.getLast? = some gap ∧ 5000 < gap := by
  induction train using train_induction with
  | nil => cases h
  | last low x hlow =>
    rw [segmentFrames_low_last hlow] at h
    cases h
  | gap low gap next rest hlow hgap ih =>
    rw [segmentFrames_low_gap hlow hgap,
      List.dropLast_cons_of_ne_nil (segmentFrames_ne_nil (List.cons_ne_nil _ _)), List.mem_cons] at h
    rcases h with rfl | h
    · exact ⟨gap, List.getLast?_concat, hgap⟩
    · exact ih h

/-- One frame for each gap, and the last frame. -/
theorem segmentFrames_length {train : List Nat} (h : train ≠ []) :
    (segmentFrames train).length = (train.dropLast.filter (fun x => decide (5000 < x))).length + 1 := by
  have hnone {low : List Nat} (hlow : ∀ x ∈ low, x ≤ 5000) :
      low.filter (fun x => decide (5000 < x)) = [] := by
    simpa using hlow
  induction train using train_induction with
  | nil => exact absurd rfl h
  | last low x hlow =>
    rw [segmentFrames_low_last hlow, List.dropLast_concat, hnone hlow]
    rfl
  | gap low gap next rest hlow hgap ih =>
    rw [segmentFrames_low_gap hlow hgap, List.length_cons, ih (List.cons_ne_nil _ _),
      List.dropLast_append_of_ne_nil (List.cons_ne_nil _ _),
      List.dropLast_cons_of_ne_nil (List.cons_ne_nil _ _), List.filter_append, hnone hlow,
      List.filter_cons_of_pos (by simpa using hgap), List.nil_append, List.length_cons]

/-- Settles O45: (a) is what the walk loses, (c) and (d) are what a frame's last pulse and its others can be. -/
theorem segmentFramesProperties : Obligations.SegmentFramesProperties := by
  intro train
  refine ⟨segmentFrames_flatten train, fun f => ne_nil_of_mem_segmentFrames, fun f hf => ?_, fun f hf => ?_,
    segmentFrames_length, ?_⟩
  · exact ⟨getLast?_of_mem_dropLast_segmentFrames hf,
      le_of_mem_dropLast_of_mem_segmentFrames (List.mem_of_mem_dropLast hf)⟩
  · exact le_of_mem_dropLast_of_mem_segmentFrames (List.mem_of_getLast? hf)
  · rintro rfl
    rfl

/-! ### The interior pairs (42_pulse_frame_decode.md R154) -/

/-- Interior pair `k` is pair `k + 1`. -/
theorem interiorPairs_pairUp_getElem? {pulses : List Nat} {k : Nat} (h : k < pulses.length / 2 - 2) :
    (interiorPairs (pairUp pulses))[k]? =
      some (pulses.getD (2 * (k + 1)) 0, spaceAt pulses (k + 1)) := by
  rw [interiorPairs_getElem? _ k (by rwa [pairUp_length]), pairUp_getElem? pulses (k + 1) (by omega)]

theorem interiorPairs_pairUp_length (pulses : List Nat) :
    (interiorPairs (pairUp pulses)).length = pulses.length / 2 - 2 := by
  rw [interiorPairs_length, pairUp_length]

/-- The space of an interior pair is a pulse with others after it. -/
theorem space_mem_dropLast {pulses : List Nat} {pair : Nat × Nat}
    (h : pair ∈ interiorPairs (pairUp pulses)) : pair.2 ∈ pulses.dropLast := by
  obtain ⟨k, hk⟩ := List.mem_iff_getElem?.mp h
  have hlt : k < pulses.length / 2 - 2 := by
    rw [← interiorPairs_pairUp_length]
    exact (List.getElem?_eq_some_iff.mp hk).1
  rw [interiorPairs_pairUp_getElem? hlt, Option.some.injEq] at hk
  have hindex : 2 * (k + 1) + 1 < pulses.length - 1 := by omega
  rw [← hk, List.mem_iff_getElem?]
  refine ⟨2 * (k + 1) + 1, ?_⟩
  rw [List.getElem?_dropLast, if_pos hindex, List.getElem?_eq_getElem (by omega)]
  exact congrArg some (List.getD_eq_getElem _ _ (by omega)).symm

/-- The placeholder drop takes nothing from the end. -/
theorem mem_dropLast_of_mem_dropLast_pulsesOf {frame : List Nat} {x : Nat}
    (h : x ∈ (pulsesOf frame).dropLast) : x ∈ frame.dropLast := by
  unfold pulsesOf at h
  split at h
  · rw [← List.tail_dropLast] at h
    exact List.mem_of_mem_tail h
  · exact h

/-- Settles O51: of the pulses of a frame only the last can be above 5000, and it is in no interior pair. -/
theorem interiorSpacesBelowGap : Obligations.InteriorSpacesBelowGap := by
  intro train frame pair hframe hpair
  exact le_of_mem_dropLast_of_mem_segmentFrames hframe _
    (mem_dropLast_of_mem_dropLast_pulsesOf (space_mem_dropLast hpair))

/-- Pairing starts again after an even count of pulses. -/
theorem pairUp_append : ∀ {front : List Nat}, front.length % 2 = 0 → ∀ rest : List Nat,
    pairUp (front ++ rest) = pairUp front ++ pairUp rest
  | [], _, _ => rfl
  | [_], h, _ => by simp at h
  | x :: y :: front, h, rest => by
    have heven : front.length % 2 = 0 := by
      simp only [List.length_cons] at h
      omega
    simp only [List.cons_append, pairUp, pairUp_append heven rest]

/-- Between a header pair and an end pair only the pulses in the middle are in interior pairs. -/
theorem interiorPairs_pairUp_frame {mid tail : List Nat} (hmid : mid.length % 2 = 0)
    (htail : tail.length ≤ 1) (m s e g : Nat) :
    interiorPairs (pairUp (m :: s :: (mid ++ e :: g :: tail))) = pairUp mid := by
  have hend : pairUp (e :: g :: tail) = [(e, g)] := by
    match tail, htail with
    | [], _ => rfl
    | [_], _ => rfl
  rw [pairUp, pairUp_append hmid, hend, interiorPairs, List.drop_one, List.tail_cons, List.dropLast_concat]

/-- Settles O49: the two frames have the same count of pulses and the same interior pairs. -/
theorem headerAndEndUnread : Obligations.HeaderAndEndUnread := by
  intro odd mid tail tail' threshold m s e g m' s' e' g' hm hm' hmid htail hlength
  have htail' : tail'.length ≤ 1 := hlength ▸ htail
  apply decodeFrame_congr <;> rw [dropPlaceholder_cons_of_ne_zero hm, dropPlaceholder_cons_of_ne_zero hm']
  · simp [hlength]
  · rw [interiorPairs_pairUp_frame hmid htail, interiorPairs_pairUp_frame hmid htail']

/-! ### When a frame gives a byte (42_pulse_frame_decode.md R155, R157) -/

/-- The walk gives `n` bits when it meets `n` spaces of at most 3000 and then a greater one or the end. -/
theorem classifyBits_length_eq_iff (threshold : Nat) (pairs : List (Nat × Nat)) (n : Nat) :
    (classifyBits threshold pairs).length = n ↔
      n ≤ pairs.length ∧ (∀ k < n, ∀ pair, pairs[k]? = some pair → pair.2 ≤ 3000) ∧
        ∀ pair, pairs[n]? = some pair → 3000 < pair.2 := by
  induction pairs generalizing n with
  | nil => simp [classifyBits, eq_comm]
  | cons pair pairs ih =>
    obtain ⟨mark, space⟩ := pair
    by_cases hspace : 3000 < space
    · rw [classifyBits, if_pos (show artifactMin < space from hspace)]
      cases n with
      | zero => simp [hspace]
      | succ n =>
        rw [Nat.forall_lt_succ_left]
        simp [hspace]
    · rw [classifyBits, if_neg (show ¬ artifactMin < space from hspace), List.length_cons]
      cases n with
      | zero => simp [hspace]
      | succ n =>
        rw [Nat.forall_lt_succ_left]
        simp [Nat.not_lt.mp hspace, ih n]

/-- Whether the walk gives 8 bits, in the spaces of a frame of 10 or more pairs. -/
theorem classifyBits_interiorPairs_length_eq_eight_iff (threshold : Nat) {pulses : List Nat}
    (h : 10 ≤ pulses.length / 2) :
    (classifyBits threshold (interiorPairs (pairUp pulses))).length = 8 ↔
      (∀ k, 1 ≤ k → k ≤ 8 → spaceAt pulses k ≤ 3000) ∧
        (pulses.length / 2 = 10 ∨ 3000 < spaceAt pulses 9) := by
  have hfirst : (∀ k < 8, ∀ pair, (interiorPairs (pairUp pulses))[k]? = some pair → pair.2 ≤ 3000) ↔
      ∀ k, 1 ≤ k → k ≤ 8 → spaceAt pulses k ≤ 3000 := by
    constructor
    · intro hall k hk hk'
      obtain ⟨j, rfl⟩ := Nat.exists_eq_add_of_le' hk
      exact hall j (by omega) _ (interiorPairs_pairUp_getElem? (by omega))
    · intro hall k hk pair hpair
      rw [interiorPairs_pairUp_getElem? (by omega), Option.some.injEq] at hpair
      exact hpair ▸ hall (k + 1) (by omega) (by omega)
  have hninth : (∀ pair, (interiorPairs (pairUp pulses))[8]? = some pair → 3000 < pair.2) ↔
      (pulses.length / 2 = 10 ∨ 3000 < spaceAt pulses 9) := by
    by_cases hten : pulses.length / 2 = 10
    · have hnone : (interiorPairs (pairUp pulses))[8]? = none :=
        List.getElem?_eq_none (by rw [interiorPairs_pairUp_length]; omega)
      simp [hnone, hten]
    · rw [interiorPairs_pairUp_getElem? (by omega)]
      simp [hten]
  rw [classifyBits_length_eq_iff, hfirst, hninth, interiorPairs_pairUp_length, and_iff_right (by omega)]

theorem oddTailFails_eq_false_iff (odd : OddTail) (pulses : List Nat) :
    oddTailFails odd pulses = false ↔ ¬ (odd = .fail ∧ pulses.length % 2 = 1) := by
  rw [← Bool.not_eq_true, oddTailFails, Bool.and_eq_true, beq_iff_eq, beq_iff_eq]

/-- Settles O46: the walk gives its 8 bits, or the frame gives no byte. -/
theorem decodableFrameExactly : Obligations.DecodableFrameExactly := by
  intro odd frame threshold
  rw [Option.isSome_iff_exists]
  simp only [decodeFrame_eq_some_iff, exists_and_left, exists_eq, and_true, oddTailFails_eq_false_iff]
  refine and_congr_right fun _ => and_congr_right fun hpairs => ?_
  exact classifyBits_interiorPairs_length_eq_eight_iff threshold hpairs

/-! ### What the threshold can do (42_pulse_frame_decode.md section 2) -/

theorem spaceAt_le_of_decodeFrame {odd : OddTail} {frame : List Nat} {threshold : Nat} {b : Byte}
    (h : decodeFrame odd frame threshold = some b) {k : Nat} (hk : k < 8) :
    spaceAt (pulsesOf frame) (k + 1) ≤ 3000 := by
  obtain ⟨_, _, hspaces, _⟩ := (decodableFrameExactly odd frame threshold).mp (Option.isSome_of_mem h)
  exact hspaces (k + 1) (by omega) (by omega)

/-- No space that is read is above 3000, so no bit passes the test of a threshold of 3000. -/
theorem decodeFrame_eq_zero_of_le {odd : OddTail} {frame : List Nat} {threshold : Nat} {b : Byte}
    (ht : 3000 ≤ threshold) (h : decodeFrame odd frame threshold = some b) : b = 0 := by
  apply BitVec.eq_of_getLsbD_eq
  intro k hk
  have hspace := spaceAt_le_of_decodeFrame h hk
  rw [decodeFrame_getLsbD h hk, decide_eq_false (by omega)]
  exact BitVec.getLsbD_zero.symm

/-- Settles O50: the threshold is in no condition of decodability, and the bits are its tests. -/
theorem thresholdReach : Obligations.ThresholdReach := by
  intro odd frame t u
  refine ⟨Bool.eq_iff_iff.mpr ?_, fun ht b => decodeFrame_eq_zero_of_le ht, fun b h k hk => ?_⟩
  · rw [decodableFrameExactly odd frame t, decodableFrameExactly odd frame u]
  · rw [decodeFrame_getLsbD h hk, decide_eq_true_eq, Nat.pos_iff_ne_zero]

/-! ### Trains that are too short, and the count of frames (43_pulse_train_decode.md section 2) -/

theorem length_le_of_mem_segmentFrames {train f : List Nat} (h : f ∈ segmentFrames train) :
    f.length ≤ train.length := by
  have hsub := (List.sublist_flatten_of_mem h).length_le
  rwa [segmentFrames_flatten] at hsub

theorem pulsesOf_length_le (frame : List Nat) : (pulsesOf frame).length ≤ frame.length := by
  unfold pulsesOf
  split
  · exact (List.tail_sublist frame).length_le
  · exact le_rfl

/-- 10 pairs need 20 pulses. -/
theorem decodeFrame_eq_none_of_short {frame : List Nat} (h : frame.length < 20) (odd : OddTail)
    (threshold : Nat) : decodeFrame odd frame threshold = none := by
  rw [← Option.not_isSome_iff_eq_none, decodableFrameExactly]
  rintro ⟨_, hpairs, _⟩
  have hlength := pulsesOf_length_le frame
  omega

theorem decodedBytes_length_le (odd : OddTail) (threshold : Nat) (train : List Nat) :
    (decodedBytes odd threshold train).length ≤ (segmentFrames train).length :=
  List.length_filterMap_le _ _

/-- NFRAMES counts the decoded bytes: none after a failure. -/
theorem exec_ptd_nframes {threshold : Option Nat} {raw : List Byte} {s t : State} {train : List Nat}
    (hparse : parse s.params raw = .ok train) (hexec : exec (.ptd threshold raw) s = .next t) :
    t.pd.nframes = (decodedBytes s.params.oddTail (effectiveThreshold s.params threshold) train).length := by
  cases hbytes : decodedBytes s.params.oddTail (effectiveThreshold s.params threshold) train with
  | nil =>
    have herror := (decodePulseTrain_eq_noDecodableFrames_iff _ _ _).mpr ⟨train, hparse, hbytes⟩
    cases (exec_ptd_of_error herror).symm.trans hexec
    rfl
  | cons b others =>
    have hresult := (execPtd_eq_of_decodedBytes hparse hbytes).symm.trans hexec
    split at hresult
    · cases hresult
      rfl
    · cases hresult

/-- Settles O56: no frame of a short train has 10 pairs, whatever its pulses are, and no frame is counted
twice. -/
theorem shortTrainUndecodable : Obligations.ShortTrainUndecodable := by
  refine ⟨fun threshold raw s train hparse hshort _ => ?_, fun threshold raw s t train hparse hexec => ?_⟩
  · refine (noDecodableFramesExactly threshold raw s).1 ⟨train, hparse, fun f hf => ?_⟩
    exact decodeFrame_eq_none_of_short ((length_le_of_mem_segmentFrames hf).trans_lt hshort) _ _
  · rw [exec_ptd_nframes hparse hexec]
    exact decodedBytes_length_le _ _ _

/-! ### Numbers below the largest duration (41_pulse_parse_segment.md R136) -/

/-- The least width, 13, holds every duration up to 8191. -/
theorem saturate_of_legal {p : Params} (h : p.legal = true) {n : Nat} (hn : n ≤ 8191) : saturate p n = n := by
  unfold saturate
  cases hw : p.durW with
  | none => rfl
  | some w =>
    simp only [Params.legal, hw, Option.all_some, Bool.and_eq_true, decide_eq_true_eq] at h
    have hpow : 2 ^ 13 ≤ 2 ^ w := Nat.pow_le_pow_right (by decide) h.2
    exact min_eq_left (by omega)

theorem effectiveThreshold_of_legal {p : Params} (h : p.legal = true) {threshold : Option Nat}
    (ht : threshold.getD 700 ≤ 8191) : effectiveThreshold p threshold = threshold.getD 700 := by
  cases threshold with
  | none => rfl
  | some t => exact saturate_of_legal h ht

/-- Settles O57: 700 is no number that saturates. -/
theorem defaultThresholdIs700 : Obligations.DefaultThresholdIs700 := by
  intro raw s hlegal
  have hsame : effectiveThreshold s.params none = effectiveThreshold s.params (some 700) :=
    (effectiveThreshold_of_legal hlegal (threshold := some 700) (by decide)).symm
  simp only [exec, execPtd, decodePulseTrain, hsame]

/-! ### A capture of frames `F(b)` (95_test_vectors.md section 2.8) -/

/-- `F(b)` ends in its only pulse above 5000. -/
theorem frameOfByte_eq_low_gap (b : Byte) :
    ∃ low, frameOfByte b = low ++ [5600] ∧ ∀ x ∈ low, x ≤ 5000 := by
  refine ⟨[2000, 1000] ++
    (List.range 8).flatMap (fun i => [400, if b.getLsbD i then 1000 else 400]) ++ [2000], rfl, ?_⟩
  intro x hx
  simp only [List.mem_append, List.mem_flatMap, List.mem_cons, List.not_mem_nil, or_false] at hx
  rcases hx with ((rfl | rfl) | ⟨i, _, rfl | rfl⟩) | rfl
  · decide
  · decide
  · decide
  · split <;> decide
  · decide

theorem le_of_mem_frameOfByte {b : Byte} {x : Nat} (h : x ∈ frameOfByte b) : x ≤ 5600 := by
  obtain ⟨low, heq, hlow⟩ := frameOfByte_eq_low_gap b
  rw [heq, List.mem_append, List.mem_singleton] at h
  rcases h with h | rfl
  · exact (hlow x h).trans (by decide)
  · exact le_rfl

/-- The gaps cut a capture of frames `F(b)` at the ends of its frames. -/
theorem segmentFrames_flatMap_frameOfByte (b : Byte) (others : List Byte) :
    segmentFrames ((b :: others).flatMap frameOfByte) = (b :: others).map frameOfByte := by
  induction others generalizing b with
  | nil =>
    obtain ⟨low, heq, hlow⟩ := frameOfByte_eq_low_gap b
    rw [List.flatMap_singleton, heq, segmentFrames_low_last hlow, ← heq, List.map_singleton]
  | cons c others ih =>
    obtain ⟨low, heq, hlow⟩ := frameOfByte_eq_low_gap b
    obtain ⟨next, rest, hrest⟩ : ∃ next rest, (c :: others).flatMap frameOfByte = next :: rest :=
      ⟨_, _, rfl⟩
    calc segmentFrames ((b :: c :: others).flatMap frameOfByte)
        = segmentFrames (low ++ 5600 :: next :: rest) := by
          rw [List.flatMap_cons, hrest, heq, List.append_assoc, List.singleton_append]
      _ = (low ++ [5600]) :: segmentFrames (next :: rest) := segmentFrames_low_gap hlow (by decide) next rest
      _ = (b :: c :: others).map frameOfByte := by rw [← heq, ← hrest, ih, ← List.map_cons]

theorem pulsesOf_frameOfByte (b : Byte) : pulsesOf (frameOfByte b) = frameOfByte b := rfl

theorem spaceAt_frameOfByte (b : Byte) {k : Nat} (hk : k < 8) :
    spaceAt (frameOfByte b) (k + 1) = if b.getLsbD k then 1000 else 400 := by
  interval_cases k <;> rfl

/-- `F(b)` has 10 pairs and no placeholder, and its 8 interior spaces are at most 1000. -/
theorem decodeFrame_frameOfByte_isSome (odd : OddTail) (b : Byte) (threshold : Nat) :
    (decodeFrame odd (frameOfByte b) threshold).isSome = true := by
  have hlength : (frameOfByte b).length = 20 := rfl
  rw [decodableFrameExactly, pulsesOf_frameOfByte, hlength]
  refine ⟨by simp, by decide, fun k hk hk' => ?_, .inl rfl⟩
  obtain ⟨j, rfl⟩ := Nat.exists_eq_add_of_le' hk
  rw [spaceAt_frameOfByte b (by omega)]
  split <;> omega

/-- A threshold between the two kinds of space tells them apart. -/
theorem decodeFrame_frameOfByte (odd : OddTail) (b : Byte) {threshold : Nat} (hlow : 400 ≤ threshold)
    (hhigh : threshold < 1000) : decodeFrame odd (frameOfByte b) threshold = some b := by
  obtain ⟨b', hb'⟩ := Option.isSome_iff_exists.mp (decodeFrame_frameOfByte_isSome odd b threshold)
  have hbits : b' = b := by
    apply BitVec.eq_of_getLsbD_eq
    intro k hk
    rw [decodeFrame_getLsbD hb' hk, pulsesOf_frameOfByte, spaceAt_frameOfByte b hk]
    cases b.getLsbD k with
    | true => simpa using hhigh
    | false => simpa using hlow
  rw [hb', hbits]

theorem decodedBytes_flatMap_frameOfByte (odd : OddTail) {threshold : Nat} (hlow : 400 ≤ threshold)
    (hhigh : threshold < 1000) (b : Byte) (others : List Byte) :
    decodedBytes odd threshold ((b :: others).flatMap frameOfByte) = b :: others := by
  have hsome : (fun f => decodeFrame odd f threshold) ∘ frameOfByte = some :=
    funext fun b => decodeFrame_frameOfByte odd b hlow hhigh
  rw [decodedBytes, segmentFrames_flatMap_frameOfByte, List.filterMap_map, hsome, List.filterMap_some]

/-- No pulse of a capture saturates. -/
theorem parse_rawOfTrain_frameOfByte {p : Params} (hlegal : p.legal = true) (hplain : plainWhitespace p)
    (bytes : List Byte) :
    parse p (rawOfTrain (bytes.flatMap frameOfByte)) = .ok (bytes.flatMap frameOfByte) := by
  have hsame : (bytes.flatMap frameOfByte).map (saturate p) = (bytes.flatMap frameOfByte).map id := by
    refine List.map_congr_left fun x hx => ?_
    obtain ⟨b, _, hx⟩ := List.mem_flatMap.mp hx
    exact saturate_of_legal hlegal ((le_of_mem_frameOfByte hx).trans (by decide))
  rw [parse_rawOfTrain hplain, hsame, List.map_id]

/-- Settles O54: the capture parses to its pulses, the gaps cut it into its frames, and each gives its byte. -/
theorem captureOfFramesDecodes : Obligations.CaptureOfFramesDecodes := by
  intro b others threshold s hlegal hnfr hplain hlow hhigh
  have hbytes : decodedBytes s.params.oddTail (effectiveThreshold s.params threshold)
      ((b :: others).flatMap frameOfByte) = b :: others := by
    rw [effectiveThreshold_of_legal hlegal (by omega)]
    exact decodedBytes_flatMap_frameOfByte _ hlow hhigh b others
  have hexec := execPtd_eq_of_decodedBytes (parse_rawOfTrain_frameOfByte hlegal hplain _) hbytes
  rw [if_pos (countFits_of_unbounded hnfr _)] at hexec
  exact ⟨_, hexec, rfl, rfl, framesMatch_cons_self_eq_one_iff b others, rfl, rfl, rfl⟩

end Sys2Proof.Machine
end
